-- ==== Sys2Proof/Word.lean ====
section
/-! DEFINITION. The words of the digi line encoder: one input bit, and the fixed-width fields of spec/30_encoding.md. -/

namespace Sys2Proof

/-- A Bit (00_scope.md R13, 30_encoding.md R57): `true` is the Bit 1, `false` the Bit 0. -/
abbrev Bit := Bool

/-- The configuration word `CFG`, 5 bits (30_encoding.md R50). -/
abbrev CfgWord := BitVec 5

/-- The `SCHEME` field of `CFG`, 3 bits (30_encoding.md R51). -/
abbrev SchemeCode := BitVec 3

/-- A `BIT` on the wire, 1 bit (30_encoding.md R57). -/
abbrev BitCode := BitVec 1

/-- A `SAMPLE` on the wire, 2 bits (30_encoding.md R58). -/
abbrev SampleCode := BitVec 2

/-- A `RESULT` on the wire, 2 bits (30_encoding.md R60). -/
abbrev ResultWord := BitVec 2

end Sys2Proof
end

