-- ==== Sys2Proof/Config.lean ====
section
/-! DEFINITION. The instance parameters of 00_scope.md §3: fixed for one instance of the block, written by no step.
The block has no other parameter (R12). What is computed from them (SPB, H) stands in Machine/Operands.lean.
The spec leaves no value free (60_exceptions.md R157), so there is no opaque constant here. -/

namespace Sys2Proof

/-- A non-negative rational constant, written as a quotient. `den = 0` is no number, and an instance that uses
it is not admitted. DESIGN CHOICE, safe (log 7): 91_not_in_source.md says nothing makes the product of the two
constants an integer, so the constants are not assumed to be integers. -/
structure Ratio where
  num : Nat
  den : Nat
  deriving DecidableEq, Repr

/-- The parameters of one instance (00_scope.md R8 to R11). -/
structure Params where
  /-- `SAMPLE_RATE`, samples per second (R10). -/
  sampleRate : Ratio
  /-- `BIT_DURATION`, seconds per bit (R10). -/
  bitDuration : Ratio
  /-- `MAX_BITS`: `none` is no bound (R11). -/
  maxBits : Option Nat
  deriving DecidableEq, Repr

/-- The defaults the spec states: 1000 samples per second, 1 second per bit, no bound (R8, R10, R11).
They make SPB = 1000, a literal the spec calls unaudited: no statement rests on it. -/
def Config.defaultParams : Params :=
  { sampleRate := { num := 1000, den := 1 }, bitDuration := { num := 1, den := 1 }, maxBits := none }

end Sys2Proof
end

