-- ==== Sys2Proof/Syntax.lean ====
section
/-! DEFINITION. The value types of 00_scope.md §4 and the instructions: one constructor of `Instr` for each row of
spec/opcode_table.json. A request is an instruction: the fields of its configuration word and its operand bits. -/

namespace Sys2Proof

/-- A Polarity (00_scope.md R14): High is +1 and Low is -1. -/
inductive Polarity where
  | high
  | low
  deriving DecidableEq, Repr

/-- A Sample (00_scope.md R15): -1, 0 or +1. -/
inductive Sample where
  | neg
  | zero
  | pos
  deriving DecidableEq, Repr

/-- A Waveform (00_scope.md R15): Samples in order, the first sample first. -/
abbrev Waveform := List Sample

/-- An EncodingScheme (00_scope.md R16): the closed set of six. -/
inductive Scheme where
  | nrzL
  | nrzI
  | bipolarAmi
  | pseudoternary
  | manchester
  | differentialManchester
  deriving DecidableEq, Repr

/-- A request on the wire (40_dispatch.md R70): the configuration word and the BitSequence, `bits[0]` first.
Its `n` is the length of `bits`. -/
structure Request where
  cfg : CfgWord
  bits : List Bit
  deriving DecidableEq, Repr

/-- The instructions, one constructor per row of the opcode table. `pv` is `CFG[3]` and `pol` is `CFG[4]`
(30_encoding.md R50), kept whole in every form so that no bit of a word is lost; `bits` is the operand
BitSequence (the Operands line of R90, R95, R110, R120, R130, R140). -/
inductive Instr where
  /-- `ENCODE NRZ-L`, SCHEME 000 (R90). -/
  | nrzL (pv pol : Bool) (bits : List Bit)
  /-- `ENCODE NRZ-I`, SCHEME 001 (R95). -/
  | nrzI (pv pol : Bool) (bits : List Bit)
  /-- `ENCODE Bipolar-AMI`, SCHEME 010 (R110). -/
  | bipolarAmi (pv pol : Bool) (bits : List Bit)
  /-- `ENCODE Pseudoternary`, SCHEME 011 (R120). -/
  | pseudoternary (pv pol : Bool) (bits : List Bit)
  /-- `ENCODE Manchester`, SCHEME 100 (R130). -/
  | manchester (pv pol : Bool) (bits : List Bit)
  /-- `ENCODE Differential-Manchester`, SCHEME 101 (R140). -/
  | differentialManchester (pv pol : Bool) (bits : List Bit)
  /-- The reserved scheme code 110 (R52, R152). -/
  | unsupported110 (pv pol : Bool) (bits : List Bit)
  /-- The reserved scheme code 111 (R52, R152). -/
  | unsupported111 (pv pol : Bool) (bits : List Bit)
  deriving DecidableEq, Repr

/-- What the dispatcher reads from a configuration word (30_encoding.md R61). -/
inductive Decoded where
  /-- `Unrecognised`: SCHEME is 110 or 111. -/
  | unrecognised
  /-- `Scheme(s, pol)`: a scheme and the optional initial polarity it was given. -/
  | scheme (s : Scheme) (pol : Option Polarity)
  deriving DecidableEq, Repr

end Sys2Proof
end

