-- ==== Sys2Proof/WellFormed.lean ====
section
/-! DEFINITION. What the spec admits, as checks on plain data. Each check is a Bool. -/

namespace Sys2Proof

/-- An instance is admitted when SPB, the product of its two constants, is a positive integer
(00_scope.md R8, 70_reset_and_hazards.md R173). -/
def Params.wf (p : Params) : Bool :=
  decide (0 < p.bitDuration.den) && decide (0 < p.sampleRate.den) &&
    decide (0 < p.bitDuration.num * p.sampleRate.num) &&
    decide ((p.bitDuration.num * p.sampleRate.num) % (p.bitDuration.den * p.sampleRate.den) = 0)

/-- A number is a configuration word when it fits 5 bits (30_encoding.md R50). Each such word is well formed. -/
def cfgNatWf (w : Nat) : Bool := decide (w < 32)

/-- Every instruction is well formed: "Every 5-bit value is a well-formed `CFG`" (30_encoding.md R50), and a
BitSequence "may be empty; length is unconstrained" (00_scope.md R13). Every constructor is named, so that an
instruction added later has to be decided here. -/
def Instr.wf : Instr → Bool
  | .nrzL _ _ _ => true
  | .nrzI _ _ _ => true
  | .bipolarAmi _ _ _ => true
  | .pseudoternary _ _ _ => true
  | .manchester _ _ _ => true
  | .differentialManchester _ _ _ => true
  | .unsupported110 _ _ _ => true
  | .unsupported111 _ _ _ => true

/-- A SAMPLE code a consumer may receive: the code `10` is never produced (30_encoding.md R58, R59). -/
def SampleCode.wf (c : SampleCode) : Bool := decide (c ≠ 2#2)

/-- A RESULT code a consumer may receive: the code `11` is never produced (30_encoding.md R60). -/
def ResultWord.wf (c : ResultWord) : Bool := decide (c ≠ 3#2)

/-- A character of a bit string: `0` or `1` (30_encoding.md R57). -/
def bitCharWf (c : Char) : Bool := decide (c = '0') || decide (c = '1')

/-- A character of a text: code 0 to 127 (30_encoding.md R63). -/
def textCharWf (c : Char) : Bool := decide (c.toNat ≤ 127)

end Sys2Proof
end

