-- ==== Sys2Proof/Decode.lean ====
section
/-! DEFINITION. The decoder (30_encoding.md §1 to §3), total on every 5-bit word and rejecting by name a number
that is no 5-bit word; after it the encoder, written from the same tables; and the codes of BIT and SAMPLE. -/

namespace Sys2Proof

/-- `CFG[2:0]` (30_encoding.md R50). -/
def cfgScheme (w : CfgWord) : SchemeCode := w.extractLsb' 0 3

/-- `CFG[3]`: polarity valid (30_encoding.md R50, R53). -/
def cfgPv (w : CfgWord) : Bool := w.getLsbD 3

/-- `CFG[4]`: the supplied polarity (30_encoding.md R50, R54). -/
def cfgPol (w : CfgWord) : Bool := w.getLsbD 4

/-- The instruction a configuration word selects, by the table of 30_encoding.md R51. A 3-bit code that is none
of 0 to 6 is 7, so the last arm is the code 111. -/
def decodeCfg (w : CfgWord) (bits : List Bit) : Instr :=
  match (cfgScheme w).toNat with
  | 0 => .nrzL (cfgPv w) (cfgPol w) bits
  | 1 => .nrzI (cfgPv w) (cfgPol w) bits
  | 2 => .bipolarAmi (cfgPv w) (cfgPol w) bits
  | 3 => .pseudoternary (cfgPv w) (cfgPol w) bits
  | 4 => .manchester (cfgPv w) (cfgPol w) bits
  | 5 => .differentialManchester (cfgPv w) (cfgPol w) bits
  | 6 => .unsupported110 (cfgPv w) (cfgPol w) bits
  | _ => .unsupported111 (cfgPv w) (cfgPol w) bits

/-- The instruction a request stands for. -/
def decodeRequest (r : Request) : Instr := decodeCfg r.cfg r.bits

/-- `requiresPol(s)` (30_encoding.md R56). -/
def Scheme.requiresPol : Scheme → Bool
  | .nrzL => false
  | .nrzI => true
  | .bipolarAmi => true
  | .pseudoternary => true
  | .manchester => false
  | .differentialManchester => true

/-- The scheme code (30_encoding.md R51). -/
def Scheme.code : Scheme → SchemeCode
  | .nrzL => 0#3
  | .nrzI => 1#3
  | .bipolarAmi => 2#3
  | .pseudoternary => 3#3
  | .manchester => 4#3
  | .differentialManchester => 5#3

/-- `PV` and `POL` as the source's optional `initial_polarity` (30_encoding.md R53, R54). -/
def initialPolarity (pv pol : Bool) : Option Polarity :=
  if pv then some (if pol then .high else .low) else none

/-- The polarity a scheme is given: PV and POL are ignored where it requires none (30_encoding.md R55, R61). -/
def Scheme.suppliedPolarity (sch : Scheme) (pv pol : Bool) : Option Polarity :=
  if sch.requiresPol then initialPolarity pv pol else none

/-- The result of `decode(CFG)` (30_encoding.md R61) for an instruction. -/
def Instr.decoded : Instr → Decoded
  | .nrzL pv pol _ => .scheme .nrzL (Scheme.suppliedPolarity .nrzL pv pol)
  | .nrzI pv pol _ => .scheme .nrzI (Scheme.suppliedPolarity .nrzI pv pol)
  | .bipolarAmi pv pol _ => .scheme .bipolarAmi (Scheme.suppliedPolarity .bipolarAmi pv pol)
  | .pseudoternary pv pol _ => .scheme .pseudoternary (Scheme.suppliedPolarity .pseudoternary pv pol)
  | .manchester pv pol _ => .scheme .manchester (Scheme.suppliedPolarity .manchester pv pol)
  | .differentialManchester pv pol _ =>
    .scheme .differentialManchester (Scheme.suppliedPolarity .differentialManchester pv pol)
  | .unsupported110 _ _ _ => .unrecognised
  | .unsupported111 _ _ _ => .unrecognised

/-- The operand bits of an instruction. -/
def Instr.bits : Instr → List Bit
  | .nrzL _ _ bits => bits
  | .nrzI _ _ bits => bits
  | .bipolarAmi _ _ bits => bits
  | .pseudoternary _ _ bits => bits
  | .manchester _ _ bits => bits
  | .differentialManchester _ _ bits => bits
  | .unsupported110 _ _ bits => bits
  | .unsupported111 _ _ bits => bits

/-- Why a number is rejected as a configuration word. -/
inductive DecodeError where
  /-- The number does not fit the 5 bits of `CFG` (30_encoding.md R50). -/
  | notFiveBits
  deriving DecidableEq, Repr

/-- Decoding of a number whose low `nbits` bits are the word, with an empty BitSequence: `CFG` carries no operand
bits, and the framing of the request gives their number (30_encoding.md R65). -/
def decodeWord (nbits w : Nat) : Except DecodeError Instr :=
  if cfgNatWf (w % 2 ^ nbits) then .ok (decodeCfg (BitVec.ofNat 5 (w % 2 ^ nbits)) [])
  else .error .notFiveBits

/-- The instruction the decoder reads from a word of the opcode table, numbered as the table numbers it. -/
def decodeTableWord (nbits w : Nat) : Option Instr :=
  match decodeWord nbits w with
  | .ok i => some i
  | .error _ => none

/-! ## The encoder -/

/-- The word `P V S S S` (30_encoding.md R50). -/
def cfgWord (pol pv : Bool) (code : SchemeCode) : CfgWord :=
  (BitVec.ofBool pol ++ BitVec.ofBool pv) ++ code

/-- The configuration word of an instruction, from the codes of 30_encoding.md R51. -/
def encodeCfg : Instr → CfgWord
  | .nrzL pv pol _ => cfgWord pol pv 0#3
  | .nrzI pv pol _ => cfgWord pol pv 1#3
  | .bipolarAmi pv pol _ => cfgWord pol pv 2#3
  | .pseudoternary pv pol _ => cfgWord pol pv 3#3
  | .manchester pv pol _ => cfgWord pol pv 4#3
  | .differentialManchester pv pol _ => cfgWord pol pv 5#3
  | .unsupported110 pv pol _ => cfgWord pol pv 6#3
  | .unsupported111 pv pol _ => cfgWord pol pv 7#3

/-- The request that carries an instruction. -/
def encode (i : Instr) : Request := { cfg := encodeCfg i, bits := i.bits }

/-! ## The stream codes -/

/-- A Bit as a BIT (30_encoding.md R57). -/
def bitCode (b : Bit) : BitCode := BitVec.ofBool b

/-- A Sample as a SAMPLE, 2-bit two's complement (30_encoding.md R58). -/
def Sample.code : Sample → SampleCode
  | .pos => 1#2
  | .zero => 0#2
  | .neg => 3#2

/-- The Sample a SAMPLE code stands for: `none` for the code `10`, which the spec does not define (R59). -/
def Sample.ofCode (c : SampleCode) : Option Sample :=
  match c.toNat with
  | 0 => some .zero
  | 1 => some .pos
  | 3 => some .neg
  | _ => none

/-- `sext_2` (00_scope.md §5): a 2-bit code as a signed integer. -/
def sext2 (c : SampleCode) : Int := c.toInt

/-- The output stream of SAMPLE codes for a Waveform, in order. -/
def sampleCodes (w : Waveform) : List SampleCode := w.map Sample.code

/-- The Waveform of a stream of SAMPLE codes, if every code is defined. -/
def waveformOfCodes : List SampleCode → Option Waveform
  | [] => some []
  | c :: cs =>
    match Sample.ofCode c, waveformOfCodes cs with
    | some v, some w => some (v :: w)
    | _, _ => none

end Sys2Proof
end

