-- ==== Sys2Proof/Machine/State.lean ====
section
/-! DEFINITION. The state of the block (10_state.md R20), the instance parameters, the two streams to and from the
host, the reset state (70_reset_and_hazards.md R170), and the reasons a step can stop. -/

namespace Sys2Proof.Machine

/-- `PHASE` (10_state.md R20). -/
inductive Phase where
  | idle
  | run
  | done
  | err
  deriving DecidableEq, Repr

/-- The two errors, which are responses and not stops (60_exceptions.md R150). -/
inductive ErrorKind where
  | configError
  | unsupportedSchemeError
  deriving DecidableEq, Repr

/-- A `RESULT` value (30_encoding.md R60): OK or one of the two errors. -/
inductive ResultCode where
  | ok
  | err (e : ErrorKind)
  deriving DecidableEq, Repr

/-- A response (40_dispatch.md R70): `Ok(W)`, `Err(ConfigError)` or `Err(UnsupportedSchemeError)`. -/
inductive Response where
  | ok (w : Waveform)
  | err (e : ErrorKind)
  deriving DecidableEq, Repr

/-- What the host does during one step. DESIGN CHOICE (log 2): the spec gives the events and no schedule, so the
schedule is data in the state. -/
inductive HostEvent where
  /-- A request arrives (40_dispatch.md R70, R71; 70_reset_and_hazards.md R177). -/
  | request (r : Request)
  /-- The host does nothing; the block makes one transition of its own. -/
  | tick
  /-- The host resets the block (70_reset_and_hazards.md R170). -/
  | reset
  deriving DecidableEq, Repr

/-- The state. The first seven fields are the whole state of 10_state.md R20. `params` holds the instance
parameters, which no step writes (R29; log 1). `inbox` and `outbox` are the model's own (log 2, log 3). -/
structure State where
  /-- `PHASE`. -/
  phase : Phase
  /-- `SCHEME_R`: the scheme being served. -/
  schemeR : Option Scheme
  /-- `LEVEL`: the running polarity (R22). -/
  level : Option Polarity
  /-- `BITS`: the input bits of the request, `bits[0]` first. -/
  bits : List Bit
  /-- `CURSOR`: the index of the next bit (R23). -/
  cursor : Nat
  /-- `WAVE`: the samples emitted so far (R25). -/
  wave : Waveform
  /-- `RESULT`. -/
  result : Option ResultCode
  /-- The instance parameters (00_scope.md R8 to R11). -/
  params : Params
  /-- What the host does in the steps to come, the next step first; empty means that the host only waits. -/
  inbox : List HostEvent
  /-- The responses delivered so far, oldest first. -/
  outbox : List Response
  deriving DecidableEq, Repr

/-- The state after reset (70_reset_and_hazards.md R170), of an instance with the spec's default parameters
(00_scope.md R8, R10, R11), with no event to come and no response delivered (log 2, log 3). -/
def State.reset : State :=
  { phase := .idle
    schemeR := none
    level := none
    bits := []
    cursor := 0
    wave := []
    result := none
    params := Config.defaultParams
    inbox := []
    outbox := [] }

/-- Stops in contents of the state that no run reaches and that the spec gives no step (DESIGN CHOICE, log 8).
All of them are safe: the model stops. 60_exceptions.md R156 says no request can fault, and no request does. -/
inductive Fault where
  /-- Raised by the fold step (Machine/Fold.lean) in RUN when SCHEME_R is none. Safe. -/
  | schemeMissing
  /-- Raised by the fold step (Machine/Fold.lean) in RUN when a stateful scheme finds LEVEL none. Safe. -/
  | levelMissing
  /-- Raised by the response (Machine/Ops.lean) in DONE or ERR when RESULT is none. Safe. -/
  | resultMissing
  deriving DecidableEq, Repr

/-- Inputs the model gives no meaning (60_exceptions.md R158). All of them are safe: no response exists. -/
inductive Refusal where
  /-- An instruction that has no meaning yet: raised by no arm of exec in this model. Safe. -/
  | notModelled (mnemonic : String)
  /-- `TooManyBits`: raised by the acceptance of a request longer than MAX_BITS (R158). Safe. -/
  | tooManyBits
  /-- `BadSPB`: raised by the acceptance and by the fold step when SPB is no positive integer (R158; log 5). Safe. -/
  | badSpb
  /-- `Busy`: raised by the acceptance when PHASE is not IDLE (R158; log 6). Safe. -/
  | busy
  /-- `BadBitChar`: raised at the text boundary (Machine/Text.lean) by a bit string's character (R158). Safe. -/
  | badBitChar
  /-- `BadTextChar`: raised at the text boundary (Machine/Text.lean) by a character above 127 (R158). Safe. -/
  | badTextChar
  /-- Raised at the text boundary (Machine/Text.lean) by a line outside the notation of 30_encoding.md R62 and R63;
  the name is the model's own (DESIGN CHOICE, log 10). Safe. -/
  | badLine
  deriving DecidableEq, Repr

end Sys2Proof.Machine
end

