-- ==== Sys2Proof/Machine/Operands.lean ====
section
/-! DEFINITION. What the operations read: polarities and samples as values, the seed of a request, and the
quantities computed from the instance parameters (SPB, H, blocklen, the bound on the length). -/

namespace Sys2Proof.Machine

/-- The value of a Polarity: +1 or -1 (00_scope.md R14). -/
def polarityValue : Polarity → Int
  | .high => 1
  | .low => -1

/-- `-p` on a Polarity (00_scope.md R14). -/
def negPolarity : Polarity → Polarity
  | .high => .low
  | .low => .high

/-- The value of a Sample (00_scope.md R15). -/
def sampleValue : Sample → Int
  | .neg => -1
  | .zero => 0
  | .pos => 1

/-- `-v` on a Sample (00_scope.md §5). -/
def negSample : Sample → Sample
  | .neg => .pos
  | .zero => .zero
  | .pos => .neg

/-- The Sample of the same value as a Polarity. -/
def sampleOf : Polarity → Sample
  | .high => .pos
  | .low => .neg

/-- `seed(s, pol)`: what acceptance writes to LEVEL (40_dispatch.md R72). -/
def seed (sch : Scheme) (pol : Option Polarity) : Option Polarity :=
  if sch.requiresPol then pol else none

/-- `SPB = BIT_DURATION × SAMPLE_RATE` when that is a positive integer, and `none` otherwise
(00_scope.md R8; log 7). -/
def samplesPerBit (p : Params) : Option Nat :=
  let num := p.bitDuration.num * p.sampleRate.num
  let den := p.bitDuration.den * p.sampleRate.den
  if den = 0 then none
  else if num % den = 0 ∧ 0 < num / den then some (num / den)
  else none

/-- `H = SPB div 2` (00_scope.md R9). -/
def half (spb : Nat) : Nat := spb / 2

/-- `blocklen(s)` (40_dispatch.md R81). -/
def blocklen (sch : Scheme) (spb : Nat) : Nat :=
  match sch with
  | .nrzL => spb
  | .nrzI => spb
  | .bipolarAmi => spb
  | .pseudoternary => spb
  | .manchester => 2 * half spb
  | .differentialManchester => 2 * half spb

/-- Whether `n` bits are within MAX_BITS (00_scope.md R11): a request of exactly MAX_BITS bits is. -/
def withinMaxBits (p : Params) (n : Nat) : Bool :=
  match p.maxBits with
  | none => true
  | some m => decide (n ≤ m)

/-- The time step `1 / SAMPLE_RATE` that labels the output (70_reset_and_hazards.md R180). No step reads it. -/
def timeStep (p : Params) : Ratio := { num := p.sampleRate.den, den := p.sampleRate.num }

/-- The duration of one bit interval, `BIT_DURATION` (70_reset_and_hazards.md R180). No step reads it. -/
def bitInterval (p : Params) : Ratio := p.bitDuration

end Sys2Proof.Machine
end

