-- ==== Sys2Proof/Machine/Flags.lean ====
section
/-! DEFINITION. The block has no flag or condition-code register (10_state.md R21), and no operation writes a flag.
The one status it reports is RESULT: its codes (30_encoding.md R60), and the response it selects
(40_dispatch.md R77). -/

namespace Sys2Proof.Machine

/-- The 2-bit code of a RESULT (30_encoding.md R60). -/
def resultWord : ResultCode → ResultWord
  | .ok => 0#2
  | .err .configError => 1#2
  | .err .unsupportedSchemeError => 2#2

/-- The RESULT a code stands for: `none` for the code `11`, which is never produced (30_encoding.md R60). -/
def resultOfWord (w : ResultWord) : Option ResultCode :=
  match w.toNat with
  | 0 => some .ok
  | 1 => some (.err .configError)
  | 2 => some (.err .unsupportedSchemeError)
  | _ => none

/-- `(RESULT == OK) ? Ok(WAVE) : Err(RESULT)` (40_dispatch.md R77). -/
def responseOf (r : ResultCode) (wave : Waveform) : Response :=
  match r with
  | .ok => .ok wave
  | .err e => .err e

/-- A response on the wire: one RESULT and, for OK alone, the SAMPLE stream (30_encoding.md §1, R60). -/
def responseWire : Response → ResultWord × List SampleCode
  | .ok w => (resultWord .ok, sampleCodes w)
  | .err e => (resultWord (.err e), [])

end Sys2Proof.Machine
end

