-- ==== Sys2Proof/Machine/Ops.lean ====
section
/-! DEFINITION. The shared operations: the sample-expansion helper, the writes to the state that acceptance, the
fold, the finish, the errors, the response and reset make, and the acceptance of a request itself.
The block has no memory (20_memory.md R40), so there is no memory operation. -/

namespace Sys2Proof.Machine

/-- `EXPAND(v, k)`: `k` copies of a Sample (40_dispatch.md R80). -/
def expand (v : Sample) (k : Nat) : Waveform := List.replicate k v

/-- Two halves of `H` samples each, the first half first (20_memory.md R42, 40_dispatch.md R81). -/
def expandHalves (v1 v2 : Sample) (spb : Nat) : Waveform := expand v1 (half spb) ++ expand v2 (half spb)

/-- Raising one of the two errors: `RESULT <- E; WAVE <- []; PHASE <- ERR` (40_dispatch.md R71). It saves no state
and goes to no handler (60_exceptions.md R160); it seeds no LEVEL and takes no step (R153). -/
def State.raiseError (s : State) (e : ErrorKind) : State :=
  { s with result := some (.err e), wave := [], phase := .err }

/-- The writes of a successful acceptance (40_dispatch.md R71). -/
def State.startRun (s : State) (sch : Scheme) (level : Option Polarity) (bits : List Bit) : State :=
  { s with schemeR := some sch, bits := bits, cursor := 0, wave := [], level := level, phase := .run }

/-- The writes of one step: LEVEL, `emit(blk)`, CURSOR (40_dispatch.md R74). -/
def State.emitBlock (s : State) (level : Option Polarity) (blk : Waveform) : State :=
  { s with level := level, wave := s.wave ++ blk, cursor := s.cursor + 1 }

/-- `finish()` (40_dispatch.md R75). -/
def State.finish (s : State) : State := { s with result := some .ok, phase := .done }

/-- The writes that end a request (40_dispatch.md R77). -/
def State.endRequest (s : State) : State :=
  { s with phase := .idle, schemeR := none, level := none, bits := [], cursor := 0, wave := [], result := none }

/-- The state after `r` was delivered: the request has ended, and the host has the response. -/
def State.answered (s : State) (r : Response) : State := { s.endRequest with outbox := s.outbox ++ [r] }

/-- `response()`, the return from DONE and from ERR alike (40_dispatch.md R77, 60_exceptions.md R160). -/
def State.respond (s : State) : Host.Outcome State Fault Refusal :=
  match s.result with
  | none => .fault .resultMissing
  | some r => .next (s.answered (responseOf r s.wave))

/-- Reset of the block: the state of 70_reset_and_hazards.md R170, the instance parameters untouched (R171). What
the host still does and what it received are the host's own. A request in progress is abandoned. -/
def State.resetBlock (s : State) : State :=
  { State.reset with params := s.params, inbox := s.inbox, outbox := s.outbox }

/-- `accept(CFG, bits)` for a request whose CFG decodes to `d` (40_dispatch.md R71), with the refusals of
60_exceptions.md R158. The instance is checked first (log 5), then that the block is free (log 6), then the scheme,
the polarity and the length, in the order of R155. -/
def acceptRequest (d : Decoded) (bits : List Bit) (s : State) : Host.Outcome State Fault Refusal :=
  match samplesPerBit s.params with
  | none => .refused .badSpb
  | some _ =>
    if s.phase = .idle then
      match d with
      | .unrecognised => .next (s.raiseError .unsupportedSchemeError)
      | .scheme sch pol =>
        if sch.requiresPol && pol.isNone then .next (s.raiseError .configError)
        else if withinMaxBits s.params bits.length then .next (s.startRun sch (seed sch pol) bits)
        else .refused .tooManyBits
    else .refused .busy

end Sys2Proof.Machine
end

