-- ==== Sys2Proof/Machine/Ami.lean ====
section
/-! DEFINITION. Bipolar AMI and Pseudoternary (spec/42_ami_family.md): the step rule of each and the acceptance of a
request for it. The first mark has the polarity opposite to the seed (R115, R125; 92_eei_decisions.md D24, log 13). -/

namespace Sys2Proof.Machine

/-- `step_AMI` (R111): a 1 bit inverts `last_nonzero` and emits it; a 0 bit emits 0. -/
def stepAmi (spb : Nat) (level : Polarity) (b : Bit) : Polarity × Waveform :=
  if b then (negPolarity level, expand (sampleOf (negPolarity level)) spb)
  else (level, expand .zero spb)

/-- `step_PT` (R121): a 0 bit inverts `last_nonzero` and emits it; a 1 bit emits 0. -/
def stepPseudoternary (spb : Nat) (level : Polarity) (b : Bit) : Polarity × Waveform :=
  if b then (level, expand .zero spb)
  else (negPolarity level, expand (sampleOf (negPolarity level)) spb)

/-- `ENCODE Bipolar-AMI` arrives (R110; 40_dispatch.md R71). The fold then applies `stepAmi`. -/
def execBipolarAmi (pv pol : Bool) (bits : List Bit) (s : State) : Host.Outcome State Fault Refusal :=
  acceptRequest (.scheme .bipolarAmi (Scheme.suppliedPolarity .bipolarAmi pv pol)) bits s

/-- `ENCODE Pseudoternary` arrives (R120; 40_dispatch.md R71). The fold then applies `stepPseudoternary`. -/
def execPseudoternary (pv pol : Bool) (bits : List Bit) (s : State) : Host.Outcome State Fault Refusal :=
  acceptRequest (.scheme .pseudoternary (Scheme.suppliedPolarity .pseudoternary pv pol)) bits s

end Sys2Proof.Machine
end

