-- ==== Sys2Proof/Machine/Manchester.lean ====
section
/-! DEFINITION. Manchester and Differential Manchester (spec/43_manchester.md): the step rule of each and the
acceptance of a request for it. Each half has H = SPB div 2 samples (R132, R134). -/

namespace Sys2Proof.Machine

/-- `step_MAN` (R131): high-then-low for a 1 bit, low-then-high for a 0 bit; LEVEL is not read. -/
def stepManchester (spb : Nat) (level : Option Polarity) (b : Bit) : Option Polarity × Waveform :=
  (level, if b then expandHalves .pos .neg spb else expandHalves .neg .pos spb)

/-- `step_DM` (R141): a 0 bit inverts at the boundary, every bit inverts at its middle, and LEVEL follows the
second half (90_conflicts.md C3, log 14). -/
def stepDifferentialManchester (spb : Nat) (level : Polarity) (b : Bit) : Polarity × Waveform :=
  let f := if b then level else negPolarity level
  (negPolarity f, expandHalves (sampleOf f) (sampleOf (negPolarity f)) spb)

/-- `ENCODE Manchester` arrives (R130; 40_dispatch.md R71). The fold then applies `stepManchester`. -/
def execManchester (pv pol : Bool) (bits : List Bit) (s : State) : Host.Outcome State Fault Refusal :=
  acceptRequest (.scheme .manchester (Scheme.suppliedPolarity .manchester pv pol)) bits s

/-- `ENCODE Differential-Manchester` arrives (R140; 40_dispatch.md R71). The fold then applies
`stepDifferentialManchester`. -/
def execDifferentialManchester (pv pol : Bool) (bits : List Bit) (s : State) : Host.Outcome State Fault Refusal :=
  acceptRequest (.scheme .differentialManchester (Scheme.suppliedPolarity .differentialManchester pv pol)) bits s

end Sys2Proof.Machine
end

