-- ==== Sys2Proof/Machine/Nrz.lean ====
section
/-! DEFINITION. NRZ-L and NRZ-I (spec/41_nrz.md): the step rule of each and the acceptance of a request for it. -/

namespace Sys2Proof.Machine

/-- `step_NRZL` (R91): +1 for a 1 bit and -1 for a 0 bit; LEVEL is not read and is returned as it is. -/
def stepNrzL (spb : Nat) (level : Option Polarity) (b : Bit) : Option Polarity × Waveform :=
  (level, expand (if b then .pos else .neg) spb)

/-- `step_NRZI` (R96): a 1 bit inverts the level before it is emitted. -/
def stepNrzI (spb : Nat) (level : Polarity) (b : Bit) : Polarity × Waveform :=
  let level' := if b then negPolarity level else level
  (level', expand (sampleOf level') spb)

/-- `ENCODE NRZ-L` arrives (R90; 40_dispatch.md R71). The fold of 40_dispatch.md R74 then applies `stepNrzL`. -/
def execNrzL (pv pol : Bool) (bits : List Bit) (s : State) : Host.Outcome State Fault Refusal :=
  acceptRequest (.scheme .nrzL (Scheme.suppliedPolarity .nrzL pv pol)) bits s

/-- `ENCODE NRZ-I` arrives (R95; 40_dispatch.md R71). The fold of 40_dispatch.md R74 then applies `stepNrzI`. -/
def execNrzI (pv pol : Bool) (bits : List Bit) (s : State) : Host.Outcome State Fault Refusal :=
  acceptRequest (.scheme .nrzI (Scheme.suppliedPolarity .nrzI pv pol)) bits s

end Sys2Proof.Machine
end

