-- ==== Sys2Proof/Machine/Fold.lean ====
section
/-! DEFINITION. The fold (spec/40_dispatch.md §3): the step of the scheme in SCHEME_R over one bit, and the block's
own transition in each phase. -/

namespace Sys2Proof.Machine

/-- A step rule of a stateful scheme, on LEVEL: it has no result where LEVEL holds no value. -/
def onLevel (f : Polarity → Bit → Polarity × Waveform) (level : Option Polarity) (b : Bit) :
    Option (Option Polarity × Waveform) :=
  match level with
  | none => none
  | some p => some (some (f p b).1, (f p b).2)

/-- `step_{SCHEME_R}(LEVEL, b)`: the table of 40_dispatch.md R74. -/
def schemeStep (sch : Scheme) (spb : Nat) (level : Option Polarity) (b : Bit) : Option (Option Polarity × Waveform) :=
  match sch with
  | .nrzL => some (stepNrzL spb level b)
  | .nrzI => onLevel (stepNrzI spb) level b
  | .bipolarAmi => onLevel (stepAmi spb) level b
  | .pseudoternary => onLevel (stepPseudoternary spb) level b
  | .manchester => some (stepManchester spb level b)
  | .differentialManchester => onLevel (stepDifferentialManchester spb) level b

/-- `step()` on the bit `b = BITS[CURSOR]` (40_dispatch.md R74). The stops are those of states that no run reaches
(log 5, log 8). -/
def State.foldStep (s : State) (b : Bit) : Host.Outcome State Fault Refusal :=
  match samplesPerBit s.params, s.schemeR with
  | none, _ => .refused .badSpb
  | some _, none => .fault .schemeMissing
  | some spb, some sch =>
    match schemeStep sch spb s.level b with
    | none => .fault .levelMissing
    | some (level, blk) => .next (s.emitBlock level blk)

/-- One transition of the block itself (40_dispatch.md R73): it waits in IDLE (70_reset_and_hazards.md R172), takes
the next bit or finishes in RUN, and responds in DONE and ERR. -/
def advance (s : State) : Host.Outcome State Fault Refusal :=
  match s.phase with
  | .idle => .next s
  | .run =>
    match s.bits[s.cursor]? with
    | some b => s.foldStep b
    | none => .next s.finish
  | .done => s.respond
  | .err => s.respond

/-- The fold of a scheme's step over bits as a function, from the level before the first bit: the level after the
last one and the waveform (40_dispatch.md R73). `none` where a stateful scheme has no level. -/
def encodeFold (sch : Scheme) (spb : Nat) (level : Option Polarity) : List Bit → Option (Option Polarity × Waveform)
  | [] => some (level, [])
  | b :: bs =>
    match schemeStep sch spb level b with
    | none => none
    | some (level', blk) =>
      match encodeFold sch spb level' bs with
      | none => none
      | some (last, w) => some (last, blk ++ w)

end Sys2Proof.Machine
end

