-- ==== Sys2Proof/Machine/Reserved.lean ====
section
/-! DEFINITION. The reserved scheme codes (30_encoding.md R52): each request with one ends with
UnsupportedSchemeError, whatever PV, POL and the bits hold (60_exceptions.md R152). -/

namespace Sys2Proof.Machine

/-- A request with the reserved code 110 arrives. -/
def execUnsupported110 (_pv _pol : Bool) (bits : List Bit) (s : State) : Host.Outcome State Fault Refusal :=
  acceptRequest .unrecognised bits s

/-- A request with the reserved code 111 arrives. -/
def execUnsupported111 (_pv _pol : Bool) (bits : List Bit) (s : State) : Host.Outcome State Fault Refusal :=
  acceptRequest .unrecognised bits s

end Sys2Proof.Machine
end

