-- ==== Sys2Proof/Machine/Dispatch.lean ====
section
/-! DEFINITION. exec: the arrival of the request that an instruction stands for, one arm per constructor. -/

namespace Sys2Proof.Machine

def exec (i : Instr) (s : State) : Host.Outcome State Fault Refusal :=
  match i with
  | .nrzL pv pol bits => Sys2Proof.Machine.execNrzL pv pol bits s
  | .nrzI pv pol bits => Sys2Proof.Machine.execNrzI pv pol bits s
  | .bipolarAmi pv pol bits => Sys2Proof.Machine.execBipolarAmi pv pol bits s
  | .pseudoternary pv pol bits => Sys2Proof.Machine.execPseudoternary pv pol bits s
  | .manchester pv pol bits => Sys2Proof.Machine.execManchester pv pol bits s
  | .differentialManchester pv pol bits => Sys2Proof.Machine.execDifferentialManchester pv pol bits s
  | .unsupported110 pv pol bits => Sys2Proof.Machine.execUnsupported110 pv pol bits s
  | .unsupported111 pv pol bits => Sys2Proof.Machine.execUnsupported111 pv pol bits s

end Sys2Proof.Machine
end

