-- ==== Sys2Proof/Machine/Step.lean ====
section
/-! DEFINITION. One step: the host's next event (log 2), then the block. -/

namespace Sys2Proof.Machine

/-- One step. An arriving request is decoded and run by exec; a tick, or a host with nothing more to do, lets the
block make its own transition; a reset resets the block. -/
def step (s : State) : Host.Outcome State Fault Refusal :=
  match s.inbox with
  | [] => advance s
  | .tick :: rest => advance { s with inbox := rest }
  | .reset :: rest => .next (State.resetBlock { s with inbox := rest })
  | .request r :: rest => exec (decodeRequest r) { s with inbox := rest }

/-- `s` with a word of the opcode table presented as the request of the very next step: the configuration word, and
a BitSequence with no bits (30_encoding.md R65: the framing of the request, not CFG, carries the number of bits).
A number that is no 5-bit word cannot be presented and changes nothing (log 4). -/
def State.withFetchWord (s : State) (nbits w : Nat) : State :=
  if cfgNatWf (w % 2 ^ nbits) then
    { s with inbox := .request { cfg := BitVec.ofNat 5 (w % 2 ^ nbits), bits := [] } :: s.inbox }
  else s

end Sys2Proof.Machine
end

