-- ==== Sys2Proof/Machine/Text.lean ====
section
/-! DEFINITION. The text notation of 30_encoding.md §4 and its two boundary refusals (60_exceptions.md R158). The host
expands a line before the block sees anything (R63), so no step reads a text: these functions make the requests that
the inbox holds. -/

namespace Sys2Proof.Machine

/-- The scheme code a name assembles to: every name but the six gives 111 (30_encoding.md R62, R64). -/
def schemeCodeOfName (name : List Char) : SchemeCode :=
  if name = "NRZ-L".toList then 0#3
  else if name = "NRZ-I".toList then 1#3
  else if name = "Bipolar-AMI".toList then 2#3
  else if name = "Pseudoternary".toList then 3#3
  else if name = "Manchester".toList then 4#3
  else if name = "Differential-Manchester".toList then 5#3
  else 7#3

/-- `init=`: writing it sets PV and gives POL; omitting it clears PV (30_encoding.md R62). POL is then 0, as in the
words of 95_test_vectors.md §3.2 (DEDUCED, log 9). -/
def cfgOfNotation (code : SchemeCode) (init : Option Polarity) : CfgWord :=
  match init with
  | none => cfgWord false false code
  | some .low => cfgWord false true code
  | some .high => cfgWord true true code

/-- The bits of a bit string, its first character first (30_encoding.md R57, R62). -/
def bitsOfChars : List Char → Except Refusal (List Bit)
  | [] => .ok []
  | c :: cs =>
    if bitCharWf c then
      match bitsOfChars cs with
      | .ok bits => .ok (decide (c = '1') :: bits)
      | .error r => .error r
    else .error .badBitChar

/-- The 8 bits of a character, most significant first: `bits[8k + j] = c[7 - j]` (20_memory.md R43). -/
def charBits (c : Char) : List Bit := (List.range 8).map fun j => c.toNat.testBit (7 - j)

/-- The bits of a text, in text order (20_memory.md R43, 30_encoding.md R63). -/
def bitsOfText : List Char → Except Refusal (List Bit)
  | [] => .ok []
  | c :: cs =>
    if textCharWf c then
      match bitsOfText cs with
      | .ok bits => .ok (charBits c ++ bits)
      | .error r => .error r
    else .error .badTextChar

/-- The request of a line's fields, given its bits or the refusal of one of its characters. -/
def requestOfFields (name : List Char) (bits : Except Refusal (List Bit)) (init : Option Polarity) :
    Except Refusal Request :=
  match bits with
  | .ok bs => .ok { cfg := cfgOfNotation (schemeCodeOfName name) init, bits := bs }
  | .error r => .error r

/-- `ENCODE <scheme-name> "<bit-string>" [init=...]` (30_encoding.md R62). -/
def assembleEncode (name bitString : List Char) (init : Option Polarity) : Except Refusal Request :=
  requestOfFields name (bitsOfChars bitString) init

/-- `ENCODE_TEXT <scheme-name> "<text>" [init=...]` (30_encoding.md R63). -/
def assembleEncodeText (name text : List Char) (init : Option Polarity) : Except Refusal Request :=
  requestOfFields name (bitsOfText text) init

/-! ## A whole line (log 10) -/

/-- What follows a prefix. -/
def afterPrefix : List Char → List Char → Option (List Char)
  | [], l => some l
  | _ :: _, [] => none
  | p :: ps, c :: cs => if p = c then afterPrefix ps cs else none

/-- What stands before a suffix. -/
def beforeSuffix (suffix l : List Char) : Option (List Char) :=
  match afterPrefix suffix.reverse l.reverse with
  | some r => some r.reverse
  | none => none

/-- What stands before the first space that an opening quote follows, and what follows that quote. -/
def splitOpenQuote : List Char → Option (List Char × List Char)
  | [] => none
  | c :: cs =>
    match afterPrefix [' ', '"'] (c :: cs) with
    | some rest => some ([], rest)
    | none =>
      match splitOpenQuote cs with
      | some (name, rest) => some (c :: name, rest)
      | none => none

/-- A scheme name is not empty and has no space at its ends: a space there belongs to the spacing of the line. It may
hold spaces inside: R64 calls "Bipolar AMI" a name, and it is none of the six. -/
def schemeNameWf (name : List Char) : Bool :=
  decide (name ≠ []) && decide (name.head? ≠ some ' ') && decide (name.getLast? ≠ some ' ')

/-- ` init=High`, as it ends a line (30_encoding.md R62). -/
def initHighText : List Char := [' ', 'i', 'n', 'i', 't', '=', 'H', 'i', 'g', 'h']

/-- ` init=Low`, as it ends a line (30_encoding.md R62). -/
def initLowText : List Char := [' ', 'i', 'n', 'i', 't', '=', 'L', 'o', 'w']

/-- The optional ` init=High` or ` init=Low` at the end of a line, and what stands before it. -/
def splitInit (l : List Char) : List Char × Option Polarity :=
  match beforeSuffix initHighText l with
  | some r => (r, some .high)
  | none =>
    match beforeSuffix initLowText l with
    | some r => (r, some .low)
    | none => (l, none)

/-- The fields of a line after its first word: the scheme name, which is all that stands before the quoted part
(30_encoding.md R62, R64), what stands between the quotes, and `init=`. -/
def lineFields (l : List Char) : Option (List Char × List Char × Option Polarity) :=
  match splitOpenQuote l with
  | none => none
  | some (name, rest) =>
    match beforeSuffix ['"'] (splitInit rest).1 with
    | none => none
    | some body => if schemeNameWf name then some (name, body, (splitInit rest).2) else none

/-- A line of the notation. Every scheme name is taken, the six and any other (R62, R64, R152). A line that is not of
the form of 30_encoding.md R62 or R63 is refused. -/
def assembleLine (l : List Char) : Except Refusal Request :=
  match afterPrefix "ENCODE ".toList l, afterPrefix "ENCODE_TEXT ".toList l with
  | some rest, _ =>
    match lineFields rest with
    | some (name, body, init) => assembleEncode name body init
    | none => .error .badLine
  | none, some rest =>
    match lineFields rest with
    | some (name, body, init) => assembleEncodeText name body init
    | none => .error .badLine
  | none, none => .error .badLine

end Sys2Proof.Machine
end

