-- ==== Sys2Proof/Safety.lean ====
section
/-! DEFINITION. The terms the statements use: the invariant of the block, a block that is ready for a request, what
it is for a request to be answered, the answer as a pure function, and a host that waits for each answer. -/

namespace Sys2Proof.Machine

/-- A block in IDLE whose instance has SPB = `spb` and whose host only waits after the request. -/
structure Ready (s : State) (spb : Nat) : Prop where
  idle : s.phase = .idle
  spb : samplesPerBit s.params = some spb
  quiet : s.inbox = []

/-- The request `i`, arriving in `s`, is accepted or ends in ERR, and once the block has had one transition for each
bit, one to finish and one to respond, the block is back in the reset state and the host has exactly one more
response, `r` (40_dispatch.md R73, R77). -/
def Answers (s : State) (i : Instr) (r : Response) : Prop :=
  ∃ t, exec i s = .next t ∧ Host.Core.run Sys2Proof.core (i.bits.length + 2) t = .next (s.answered r)

/-- What PHASE says about the other elements (10_state.md R20, R24 to R27; 40_dispatch.md R71 to R77). -/
def PhaseInv (s : State) : Prop :=
  match s.phase with
  | .idle => s.schemeR = none ∧ s.level = none ∧ s.bits = [] ∧ s.cursor = 0 ∧ s.wave = [] ∧ s.result = none
  | .run =>
    ∃ sch spb, s.schemeR = some sch ∧ samplesPerBit s.params = some spb ∧ s.level.isSome = sch.requiresPol ∧
      s.cursor ≤ s.bits.length ∧ withinMaxBits s.params s.bits.length = true ∧
      s.wave.length = s.cursor * blocklen sch spb ∧ s.result = none
  | .done =>
    ∃ sch spb, s.schemeR = some sch ∧ samplesPerBit s.params = some spb ∧ s.level.isSome = sch.requiresPol ∧
      s.cursor = s.bits.length ∧ withinMaxBits s.params s.bits.length = true ∧
      s.wave.length = s.cursor * blocklen sch spb ∧ s.result = some .ok
  | .err =>
    s.schemeR = none ∧ s.level = none ∧ s.bits = [] ∧ s.cursor = 0 ∧ s.wave = [] ∧
      ∃ e, s.result = some (.err e)

/-- In RUN and DONE, LEVEL and WAVE are what the pure fold of the scheme gives for the bits consumed so far, from
some seed that the scheme admits (40_dispatch.md R73, 10_state.md R22). -/
def FoldInv (s : State) : Prop :=
  s.phase = .run ∨ s.phase = .done →
    ∃ sch spb level₀, s.schemeR = some sch ∧ samplesPerBit s.params = some spb ∧ level₀.isSome = sch.requiresPol ∧
      encodeFold sch spb level₀ (s.bits.take s.cursor) = some (s.level, s.wave)

/-- The answer to a request as a function of the request, SPB and MAX_BITS alone, with the refusals in the order of
60_exceptions.md R155 (40_dispatch.md R73, R82). A stateful fold without a level is a request without its polarity,
which is ConfigError; the check before the fold already answers it, for empty bits too. -/
def pureAnswer (p : Params) (i : Instr) : Except Refusal Response :=
  match samplesPerBit p with
  | none => .error .badSpb
  | some spb =>
    match i.decoded with
    | .unrecognised => .ok (.err .unsupportedSchemeError)
    | .scheme sch pol =>
      if sch.requiresPol && pol.isNone then .ok (.err .configError)
      else if withinMaxBits p i.bits.length then
        match encodeFold sch spb (seed sch pol) i.bits with
        | none => .ok (.err .configError)
        | some (_, w) => .ok (.ok w)
      else .error .tooManyBits

/-- A host that issues the requests in order and waits for each answer before the next (70_reset_and_hazards.md R177;
95_test_vectors.md §6): a request is followed by one tick per bit, one to finish and one to respond. -/
def programEvents : List Request → List HostEvent
  | [] => []
  | r :: rs => .request r :: (List.replicate (r.bits.length + 2) .tick ++ programEvents rs)

/-- The answers to a list of requests, if none of them is refused. -/
def pureAnswers (p : Params) : List Request → Except Refusal (List Response)
  | [] => .ok []
  | r :: rs =>
    match pureAnswer p (decodeRequest r) with
    | .error e => .error e
    | .ok a =>
      match pureAnswers p rs with
      | .error e => .error e
      | .ok as => .ok (a :: as)

/-- The six scheme names, in the order of their codes 000 to 101 (30_encoding.md R51, R62). -/
def schemeNames : List (List Char) :=
  ["NRZ-L".toList, "NRZ-I".toList, "Bipolar-AMI".toList, "Pseudoternary".toList, "Manchester".toList,
    "Differential-Manchester".toList]

/-- `cfg` is the configuration word of the notation's scheme name and `init=`: `CFG[2:0]` is the place of the name
among the six, or 111 for any other name, `CFG[3]` says whether `init=` is written, and `CFG[4]` is 1 exactly for
`init=High` (30_encoding.md R50, R62; that it is 0 where no `init=` is written is log 9). -/
def NotationCfg (name : List Char) (init : Option Polarity) (cfg : CfgWord) : Prop :=
  (∀ k, schemeNames[k]? = some name → (cfg.extractLsb' 0 3).toNat = k) ∧
    (name ∉ schemeNames → (cfg.extractLsb' 0 3).toNat = 7) ∧
    cfg.getLsbD 3 = init.isSome ∧ cfg.getLsbD 4 = decide (init = some .high)

/-- The polarity `p` after `k` inversions. -/
def invertTimes (p : Polarity) (k : Nat) : Polarity := if k % 2 = 0 then p else negPolarity p

/-- How many of the bits before index `i` have the value `v`. -/
def countBefore (v : Bit) (bits : List Bit) (i : Nat) : Nat := (bits.take i).count v

end Sys2Proof.Machine
end

