-- ==== Sys2Proof/Certificates/Slice0/Obligations.lean ====
section
/-! DEFINITION. The statements for the provers. R<n> is a numbered rule of spec/, D<n> a decision of
spec/92_eei_decisions.md, C<n> a conflict of spec/90_conflicts.md. A docstring that names a D<n>, or says "derived", marks
what the spec itself calls its own decision or inference. -/

open Sys2Proof Sys2Proof.Machine

/-! ## Words -/

/-- Derived (D4, D5, D6): an instruction and its request determine each other, so no bit of either is dropped. -/
def Obligations.DecodeAndEncodeAreInverse : Prop :=
  (∀ i : Instr, decodeRequest (encode i) = i) ∧ ∀ r : Request, encode (decodeRequest r) = r

/-- Derived (D4, D5, D6): the decode table of all 32 configuration words, 95_test_vectors.md §5. -/
def Obligations.ConfigurationWordsDecodeAsListed : Prop :=
  ∀ bits : List Bit,
    let read : CfgWord → Decoded := fun w => (decodeCfg w bits).decoded
    ([0x00#5, 0x08#5, 0x10#5, 0x18#5].map read = List.replicate 4 (Decoded.scheme .nrzL none)) ∧
    ([0x04#5, 0x0C#5, 0x14#5, 0x1C#5].map read = List.replicate 4 (Decoded.scheme .manchester none)) ∧
    ([0x06#5, 0x0E#5, 0x16#5, 0x1E#5].map read = List.replicate 4 Decoded.unrecognised) ∧
    ([0x07#5, 0x0F#5, 0x17#5, 0x1F#5].map read = List.replicate 4 Decoded.unrecognised) ∧
    read 0x01#5 = .scheme .nrzI none ∧ read 0x11#5 = .scheme .nrzI none ∧
    read 0x09#5 = .scheme .nrzI (some .low) ∧ read 0x19#5 = .scheme .nrzI (some .high) ∧
    read 0x02#5 = .scheme .bipolarAmi none ∧ read 0x12#5 = .scheme .bipolarAmi none ∧
    read 0x0A#5 = .scheme .bipolarAmi (some .low) ∧ read 0x1A#5 = .scheme .bipolarAmi (some .high) ∧
    read 0x03#5 = .scheme .pseudoternary none ∧ read 0x13#5 = .scheme .pseudoternary none ∧
    read 0x0B#5 = .scheme .pseudoternary (some .low) ∧ read 0x1B#5 = .scheme .pseudoternary (some .high) ∧
    read 0x05#5 = .scheme .differentialManchester none ∧ read 0x15#5 = .scheme .differentialManchester none ∧
    read 0x0D#5 = .scheme .differentialManchester (some .low) ∧
    read 0x1D#5 = .scheme .differentialManchester (some .high)

/-- R14: High is +1, Low is -1, negating one gives the other; and the Sample of a Polarity has its value. -/
def Obligations.PolarityHasItsUnitValue : Prop :=
  polarityValue .high = 1 ∧ polarityValue .low = -1 ∧
    ∀ p : Polarity, polarityValue (negPolarity p) = -polarityValue p ∧ sampleValue (sampleOf p) = polarityValue p

/-- Derived (D8): the SAMPLE codes are two's complement, the code `10` is never produced, and a stream of codes gives
its Waveform back. -/
def Obligations.SampleStreamKeepsTheWaveform : Prop :=
  (∀ v : Sample, sext2 v.code = sampleValue v) ∧
    ∀ w : Waveform, waveformOfCodes (sampleCodes w) = some w ∧ ∀ c ∈ sampleCodes w, c ≠ 0b10#2

/-- Derived (D15): the RESULT codes, the code `11` is never produced, and an error response carries no sample. -/
def Obligations.ResultCodesAreAsTabled : Prop :=
  resultWord .ok = 0b00#2 ∧ resultWord (.err .configError) = 0b01#2 ∧
    resultWord (.err .unsupportedSchemeError) = 0b10#2 ∧ (∀ r : ResultCode, resultOfWord (resultWord r) = some r) ∧
    (∀ w : Waveform, responseWire (.ok w) = (0b00#2, sampleCodes w)) ∧
    ∀ e : ErrorKind, responseWire (.err e) = (resultWord (.err e), [])

/-- Derived (D9, and log 7 for the rational constants): SPB is the product of the two constants, exactly when that is a
positive integer. -/
def Obligations.SamplesPerBitIsThePositiveIntegralProduct : Prop :=
  ∀ (p : Params) (spb : Nat), samplesPerBit p = some spb ↔
    0 < spb ∧ 0 < p.bitDuration.den ∧ 0 < p.sampleRate.den ∧
      p.bitDuration.num * p.sampleRate.num = spb * (p.bitDuration.den * p.sampleRate.den)

/-! ## The host's events -/

/-- Derived (D3, log 2): a step runs the decoded request when one arrives, and otherwise the block's transition; what
it adds is that the event has left the inbox. -/
def Obligations.StepRunsTheDecodedRequest : Prop :=
  (∀ (s : State) (r : Request) (rest : List HostEvent), s.inbox = .request r :: rest →
      step s = exec (decodeRequest r) { s with inbox := rest }) ∧
    (∀ (s : State) (rest : List HostEvent), s.inbox = .tick :: rest → step s = advance { s with inbox := rest }) ∧
    ∀ s : State, s.inbox = [] → step s = advance s

/-- Derived (D17): in IDLE with nothing arriving the block waits. -/
def Obligations.IdleBlockWaits : Prop :=
  ∀ s : State, s.phase = .idle →
    (s.inbox = [] → step s = .next s) ∧
      ∀ rest, s.inbox = .tick :: rest → step s = .next { s with inbox := rest }

/-- Derived (D17): the state after reset. The parameters are the spec's defaults; the empty inbox and outbox are the
model's choice (log 2, log 3). -/
def Obligations.StateAfterReset : Prop :=
  State.reset.phase = .idle ∧ State.reset.schemeR = none ∧ State.reset.level = none ∧ State.reset.bits = [] ∧
    State.reset.cursor = 0 ∧ State.reset.wave = [] ∧ State.reset.result = none ∧
    samplesPerBit State.reset.params = some 1000 ∧ State.reset.params.maxBits = none

/-- Derived (D17, log 2): a reset, also in the middle of a request, puts every element of the block at its reset value,
delivers no response and leaves the instance parameters as they are. -/
def Obligations.ResetAbandonsTheRequest : Prop :=
  ∀ (s : State) (rest : List HostEvent), s.inbox = .reset :: rest →
    step s = .next { s with
      phase := .idle, schemeR := none, level := none, bits := [], cursor := 0, wave := [], result := none,
      inbox := rest }

/-! ## Acceptance -/

/-- Derived (D3, D11, D16): a request for NRZ-L or Manchester is accepted, with or without a polarity, and LEVEL holds
no value. Nothing else changes. -/
def Obligations.StatelessRequestsAreAccepted : Prop :=
  ∀ (s : State) (spb : Nat) (pv pol : Bool) (bits : List Bit), s.phase = .idle → samplesPerBit s.params = some spb →
    withinMaxBits s.params bits.length = true →
      exec (.nrzL pv pol bits) s = .next { s with
        phase := .run, schemeR := some .nrzL, level := none, bits := bits, cursor := 0, wave := [] } ∧
      exec (.manchester pv pol bits) s = .next { s with
        phase := .run, schemeR := some .manchester, level := none, bits := bits, cursor := 0, wave := [] }

/-- Derived (D3, D6): a request for a stateful scheme with a polarity is accepted, and LEVEL is seeded +1 for High and
-1 for Low. Nothing else changes. -/
def Obligations.StatefulRequestsAreAcceptedWithTheirSeed : Prop :=
  ∀ (s : State) (spb : Nat) (pol : Bool) (bits : List Bit), s.phase = .idle → samplesPerBit s.params = some spb →
    withinMaxBits s.params bits.length = true →
      exec (.nrzI true pol bits) s = .next { s with
        phase := .run, schemeR := some .nrzI, level := some (if pol then .high else .low), bits := bits, cursor := 0,
        wave := [] } ∧
      exec (.bipolarAmi true pol bits) s = .next { s with
        phase := .run, schemeR := some .bipolarAmi, level := some (if pol then .high else .low), bits := bits,
        cursor := 0, wave := [] } ∧
      exec (.pseudoternary true pol bits) s = .next { s with
        phase := .run, schemeR := some .pseudoternary, level := some (if pol then .high else .low), bits := bits,
        cursor := 0, wave := [] } ∧
      exec (.differentialManchester true pol bits) s = .next { s with
        phase := .run, schemeR := some .differentialManchester, level := some (if pol then .high else .low),
        bits := bits, cursor := 0, wave := [] }

/-- Derived (D12, D13): a stateful request without a polarity ends with ConfigError, for every number of bits, empty
and over-long ones too. -/
def Obligations.MissingPolarityIsConfigError : Prop :=
  ∀ (s : State) (spb : Nat) (pol : Bool) (bits : List Bit), s.phase = .idle → samplesPerBit s.params = some spb →
    ∀ i ∈ [Instr.nrzI false pol bits, .bipolarAmi false pol bits, .pseudoternary false pol bits,
      .differentialManchester false pol bits],
      exec i s = .next { s with result := some (.err .configError), wave := [], phase := .err }

/-- Derived (D5, D12): both reserved scheme codes end with UnsupportedSchemeError, whatever PV, POL and the bits hold,
and once the response is delivered the host has that error. -/
def Obligations.ReservedSchemeCodesAreUnsupported : Prop :=
  ∀ (s : State) (spb : Nat) (pv pol : Bool) (bits : List Bit), s.phase = .idle → samplesPerBit s.params = some spb →
    ∀ i ∈ [Instr.unsupported110 pv pol bits, .unsupported111 pv pol bits],
      exec i s = .next { s with result := some (.err .unsupportedSchemeError), wave := [], phase := .err } ∧
        (s.inbox = [] → Answers s i (.err .unsupportedSchemeError))

/-- Derived (D5, D13): each error is raised when its cause holds and only then. The premise on RESULT is that of IDLE
(10_state.md R20): RESULT holds a value in DONE and ERR alone. -/
def Obligations.ErrorsAreRaisedExactlyByTheirCauses : Prop :=
  ∀ (s : State) (spb : Nat) (i : Instr), s.phase = .idle → s.result = none → samplesPerBit s.params = some spb →
    ((∃ t, exec i s = .next t ∧ t.result = some (.err .configError)) ↔
      ∃ bits pol, i = .nrzI false pol bits ∨ i = .bipolarAmi false pol bits ∨ i = .pseudoternary false pol bits ∨
        i = .differentialManchester false pol bits) ∧
    ((∃ t, exec i s = .next t ∧ t.result = some (.err .unsupportedSchemeError)) ↔
      ∃ bits pv pol, i = .unsupported110 pv pol bits ∨ i = .unsupported111 pv pol bits)

/-- Derived (R153; D13, log 12, for no bits; D12, log 17, for bits past MAX_BITS): a request with an error emits no sample, seeds no LEVEL and takes no step; the error stands in the same step
as the request, and one step later it is delivered and the block is in its reset state again. -/
def Obligations.ErrorsComeBeforeAnyComputation : Prop :=
  ∀ (s : State) (spb : Nat) (i : Instr), s.phase = .idle → s.inbox = [] → samplesPerBit s.params = some spb →
    (i.decoded = .unrecognised ∨ ∃ sch, i.decoded = .scheme sch none ∧ sch.requiresPol = true) →
      ∃ e t, exec i s = .next t ∧ t = { s with result := some (.err e), wave := [], phase := .err } ∧
        step t = .next { s with
          phase := .idle, schemeR := none, level := none, bits := [], cursor := 0, wave := [], result := none,
          outbox := s.outbox ++ [.err e] }

/-- Derived (D12): the scheme is checked before the polarity, the polarity before the length, and a request that
passes all three is accepted. -/
def Obligations.ValidationReportsTheFirstCause : Prop :=
  ∀ (s : State) (spb : Nat) (i : Instr), s.phase = .idle → samplesPerBit s.params = some spb →
    exec i s = match i.decoded with
      | .unrecognised => .next (s.raiseError .unsupportedSchemeError)
      | .scheme sch pol =>
        if sch.requiresPol = true ∧ pol = none then .next (s.raiseError .configError)
        else if ∃ m, s.params.maxBits = some m ∧ m < i.bits.length then .refused .tooManyBits
        else .next (s.startRun sch pol i.bits)

/-- Derived (D18, log 6): every request that arrives while the phase is not IDLE is refused as Busy. -/
def Obligations.RequestsWhileBusyAreRefused : Prop :=
  ∀ (s : State) (spb : Nat) (i : Instr), samplesPerBit s.params = some spb → s.phase ≠ .idle →
    exec i s = .refused .busy

/-- Derived (D9; that this check comes first is the model's choice, log 5): an instance whose SPB is no positive
integer refuses every request. -/
def Obligations.InstancesWithoutAPositiveIntegralSpbRefuse : Prop :=
  ∀ (s : State) (i : Instr), samplesPerBit s.params = none → exec i s = .refused .badSpb

/-- Derived (D6, D11): POL makes no difference where PV is 0, and neither PV nor POL does where the scheme is
stateless. -/
def Obligations.IgnoredPolarityFieldsChangeNothing : Prop :=
  ∀ (s : State) (pv pv' pol pol' : Bool) (bits : List Bit),
    exec (.nrzL pv pol bits) s = exec (.nrzL pv' pol' bits) s ∧
    exec (.manchester pv pol bits) s = exec (.manchester pv' pol' bits) s ∧
    exec (.nrzI false pol bits) s = exec (.nrzI false pol' bits) s ∧
    exec (.bipolarAmi false pol bits) s = exec (.bipolarAmi false pol' bits) s ∧
    exec (.pseudoternary false pol bits) s = exec (.pseudoternary false pol' bits) s ∧
    exec (.differentialManchester false pol bits) s = exec (.differentialManchester false pol' bits) s

/-! ## One step of the fold -/

/-- R74: in RUN with a bit left, a step applies the step rule of SCHEME_R to LEVEL and that bit, writes LEVEL, appends
the block and moves CURSOR on by one; nothing else changes. The six step rules are total on the levels their scheme
can hold. -/
def Obligations.OneStepConsumesOneBit : Prop :=
  (∀ (s : State) (spb : Nat) (sch : Scheme) (b : Bit) (level : Option Polarity) (blk : Waveform),
    s.inbox = [] → s.phase = .run → s.schemeR = some sch → samplesPerBit s.params = some spb →
    s.bits[s.cursor]? = some b → schemeStep sch spb s.level b = some (level, blk) →
      step s = .next { s with level := level, wave := s.wave ++ blk, cursor := s.cursor + 1 }) ∧
  (∀ (spb : Nat) (level : Option Polarity) (b : Bit),
    schemeStep .nrzL spb level b = some (stepNrzL spb level b) ∧
    schemeStep .manchester spb level b = some (stepManchester spb level b)) ∧
  ∀ (spb : Nat) (p : Polarity) (b : Bit),
    schemeStep .nrzI spb (some p) b = some (some (stepNrzI spb p b).1, (stepNrzI spb p b).2) ∧
    schemeStep .bipolarAmi spb (some p) b = some (some (stepAmi spb p b).1, (stepAmi spb p b).2) ∧
    schemeStep .pseudoternary spb (some p) b =
      some (some (stepPseudoternary spb p b).1, (stepPseudoternary spb p b).2) ∧
    schemeStep .differentialManchester spb (some p) b =
      some (some (stepDifferentialManchester spb p b).1, (stepDifferentialManchester spb p b).2)

/-- R91: the NRZ-L step emits SPB samples of +1 for a 1 bit and of -1 for a 0 bit, and leaves LEVEL as it is. -/
def Obligations.NrzLStepHoldsTheLevelOfTheBit : Prop :=
  ∀ (s : State) (spb : Nat) (b : Bit), s.inbox = [] → s.phase = .run → s.schemeR = some .nrzL →
    samplesPerBit s.params = some spb → s.bits[s.cursor]? = some b →
      step s = .next { s with
        wave := s.wave ++ List.replicate spb (if b then Sample.pos else Sample.neg), cursor := s.cursor + 1 }

/-- R96: the NRZ-I step inverts the level on a 1 bit before it emits, and keeps it on a 0 bit. -/
def Obligations.NrzIStepInvertsOnOneBeforeEmitting : Prop :=
  ∀ (s : State) (spb : Nat) (p : Polarity), s.inbox = [] → s.phase = .run → s.schemeR = some .nrzI →
    s.level = some p → samplesPerBit s.params = some spb →
      (s.bits[s.cursor]? = some true → step s = .next { s with
        level := some (negPolarity p), wave := s.wave ++ List.replicate spb (sampleOf (negPolarity p)),
        cursor := s.cursor + 1 }) ∧
      (s.bits[s.cursor]? = some false → step s = .next { s with
        wave := s.wave ++ List.replicate spb (sampleOf p), cursor := s.cursor + 1 })

/-- R111: the AMI step inverts `last_nonzero` on a mark and emits it; on a space it emits 0 and leaves it unchanged. -/
def Obligations.AmiStepAlternatesOnMarks : Prop :=
  ∀ (s : State) (spb : Nat) (p : Polarity), s.inbox = [] → s.phase = .run → s.schemeR = some .bipolarAmi →
    s.level = some p → samplesPerBit s.params = some spb →
      (s.bits[s.cursor]? = some true → step s = .next { s with
        level := some (negPolarity p), wave := s.wave ++ List.replicate spb (sampleOf (negPolarity p)),
        cursor := s.cursor + 1 }) ∧
      (s.bits[s.cursor]? = some false → step s = .next { s with
        wave := s.wave ++ List.replicate spb Sample.zero, cursor := s.cursor + 1 })

/-- Derived (R121 derives from "Mirror of AMI" that a 1 bit leaves `last_nonzero` unchanged): the Pseudoternary step is
the AMI step with the bit roles swapped. -/
def Obligations.PseudoternaryStepAlternatesOnZeros : Prop :=
  ∀ (s : State) (spb : Nat) (p : Polarity), s.inbox = [] → s.phase = .run → s.schemeR = some .pseudoternary →
    s.level = some p → samplesPerBit s.params = some spb →
      (s.bits[s.cursor]? = some false → step s = .next { s with
        level := some (negPolarity p), wave := s.wave ++ List.replicate spb (sampleOf (negPolarity p)),
        cursor := s.cursor + 1 }) ∧
      (s.bits[s.cursor]? = some true → step s = .next { s with
        wave := s.wave ++ List.replicate spb Sample.zero, cursor := s.cursor + 1 })

/-- Derived (R131; D10, log 20, for the half of an odd SPB): the Manchester step emits high-then-low for a 1 bit and
low-then-high for a 0 bit, SPB div 2 samples each, and leaves LEVEL as it is. -/
def Obligations.ManchesterStepSplitsTheBit : Prop :=
  ∀ (s : State) (spb : Nat), s.inbox = [] → s.phase = .run → s.schemeR = some .manchester →
    samplesPerBit s.params = some spb →
      (s.bits[s.cursor]? = some true → step s = .next { s with
        wave := s.wave ++ (List.replicate (spb / 2) Sample.pos ++ List.replicate (spb / 2) Sample.neg),
        cursor := s.cursor + 1 }) ∧
      (s.bits[s.cursor]? = some false → step s = .next { s with
        wave := s.wave ++ (List.replicate (spb / 2) Sample.neg ++ List.replicate (spb / 2) Sample.pos),
        cursor := s.cursor + 1 })

/-- Derived (R141; C3, log 14, for the new LEVEL; D10, log 20, for the half of an odd SPB): the Differential Manchester step starts at the line level on a 1 bit and at its opposite
on a 0 bit, changes at mid-bit, and LEVEL becomes the second half's level. -/
def Obligations.DifferentialManchesterStepFollowsTheLineLevel : Prop :=
  ∀ (s : State) (spb : Nat) (p : Polarity), s.inbox = [] → s.phase = .run →
    s.schemeR = some .differentialManchester → s.level = some p → samplesPerBit s.params = some spb →
      (s.bits[s.cursor]? = some true → step s = .next { s with
        level := some (negPolarity p),
        wave := s.wave ++ (List.replicate (spb / 2) (sampleOf p) ++
          List.replicate (spb / 2) (sampleOf (negPolarity p))),
        cursor := s.cursor + 1 }) ∧
      (s.bits[s.cursor]? = some false → step s = .next { s with
        wave := s.wave ++ (List.replicate (spb / 2) (sampleOf (negPolarity p)) ++
          List.replicate (spb / 2) (sampleOf p)),
        cursor := s.cursor + 1 })

/-- Derived (R81; D10, log 20, for the half of an odd SPB): the block of every step is SPB samples, or twice SPB div 2 for the Manchester family. -/
def Obligations.EveryBlockHasTheLengthOfItsScheme : Prop :=
  ∀ (sch : Scheme) (spb : Nat) (level level' : Option Polarity) (b : Bit) (blk : Waveform),
    schemeStep sch spb level b = some (level', blk) →
      (sch ∈ [Scheme.nrzL, .nrzI, .bipolarAmi, .pseudoternary] →
        blk.length = spb ∧ ∃ v, blk = expand v spb) ∧
      (sch ∈ [Scheme.manchester, .differentialManchester] →
        blk.length = 2 * (spb / 2) ∧ ∃ v1 v2, blk = expand v1 (spb / 2) ++ expand v2 (spb / 2))

/-! ## The end of a request -/

/-- Derived (D3): when every bit is consumed, the next step writes OK and enters DONE; nothing else changes. -/
def Obligations.TheLastBitIsFollowedByTheFinish : Prop :=
  ∀ s : State, s.inbox = [] → s.phase = .run → s.cursor = s.bits.length →
    step s = .next { s with result := some .ok, phase := .done }

/-- Derived (D3): in DONE with OK the response is the whole of WAVE, in ERR it is the error; it is delivered once, and
the block is then in its reset state. -/
def Obligations.TheResponseEndsTheRequest : Prop :=
  ∀ s : State, s.inbox = [] →
    (s.phase = .done → s.result = some .ok → step s = .next { s with
      phase := .idle, schemeR := none, level := none, bits := [], cursor := 0, wave := [], result := none,
      outbox := s.outbox ++ [.ok s.wave] }) ∧
    (∀ e, s.phase = .err → s.result = some (.err e) → step s = .next { s with
      phase := .idle, schemeR := none, level := none, bits := [], cursor := 0, wave := [], result := none,
      outbox := s.outbox ++ [.err e] })

/-- Derived (R76; D11, log 11, for NRZ-L and Manchester with PV = 1): a request with no bits that passes validation goes
from RUN to DONE with no step, and its response is the empty waveform, for all six schemes. -/
def Obligations.EmptyRequestsGiveTheEmptyWaveform : Prop :=
  ∀ (s : State) (spb : Nat) (pv pol : Bool), Ready s spb →
    ∀ i ∈ [Instr.nrzL pv pol [], .nrzI true pol [], .bipolarAmi true pol [], .pseudoternary true pol [],
      .manchester pv pol [], .differentialManchester true pol []],
      ∃ t u, exec i s = .next t ∧ t.phase = .run ∧ step t = .next u ∧ u.phase = .done ∧ u.wave = [] ∧
        step u = .next (s.answered (.ok []))

/-- Derived (R78, from R71, R74, R75): an accepted request is in RUN with CURSOR = j after j steps, for each j up to n,
and in DONE with OK one step after that. -/
def Obligations.AcceptedRequestsTakeOneStepPerBit : Prop :=
  ∀ (s : State) (spb : Nat) (sch : Scheme) (pol : Option Polarity) (i : Instr), Ready s spb →
    i.decoded = .scheme sch pol → (sch.requiresPol = true → pol.isSome = true) →
    withinMaxBits s.params i.bits.length = true →
      ∃ t, exec i s = .next t ∧
        (∀ j ≤ i.bits.length, ∃ u, Host.Core.run Sys2Proof.core j t = .next u ∧ u.phase = .run ∧ u.cursor = j) ∧
        ∃ u, Host.Core.run Sys2Proof.core (i.bits.length + 1) t = .next u ∧ u.phase = .done ∧ u.result = some .ok

/-- Derived (10_state.md R22, and C3 for Differential Manchester): LEVEL after j bits. In NRZ-I, Bipolar AMI and
Differential Manchester it is the seed inverted once for each 1 among them, in Pseudoternary once for each 0; in the
stateless schemes it holds no value. -/
def Obligations.LevelAfterTheFirstBits : Prop :=
  ∀ (s : State) (spb : Nat) (pv pol : Bool) (bits : List Bit) (j : Nat), Ready s spb →
    withinMaxBits s.params bits.length = true → j ≤ bits.length →
      (∀ i ∈ [Instr.nrzI true pol bits, .bipolarAmi true pol bits, .differentialManchester true pol bits],
        ∃ t u, exec i s = .next t ∧ Host.Core.run Sys2Proof.core j t = .next u ∧
          u.level = some (invertTimes (if pol then .high else .low) (countBefore true bits j))) ∧
      (∃ t u, exec (.pseudoternary true pol bits) s = .next t ∧ Host.Core.run Sys2Proof.core j t = .next u ∧
          u.level = some (invertTimes (if pol then .high else .low) (countBefore false bits j))) ∧
      ∀ i ∈ [Instr.nrzL pv pol bits, .manchester pv pol bits],
        ∃ t u, exec i s = .next t ∧ Host.Core.run Sys2Proof.core j t = .next u ∧ u.level = none

/-! ## Whole requests -/

/-- Derived (41_nrz.md §1): NRZ-L answers with n × SPB samples, the samples of bit i at its level. -/
def Obligations.NrzLRequestAnswersItsBits : Prop :=
  ∀ (s : State) (spb : Nat) (pv pol : Bool) (bits : List Bit), Ready s spb →
    withinMaxBits s.params bits.length = true →
      ∃ w, Answers s (.nrzL pv pol bits) (.ok w) ∧ w.length = bits.length * spb ∧
        ∀ i j b, bits[i]? = some b → j < spb → w[i * spb + j]? = some (if b then Sample.pos else Sample.neg)

/-- Derived (41_nrz.md §2): NRZ-I answers with n × SPB samples; the block of bit i is the seed inverted once for each 1
among the bits up to and with i. -/
def Obligations.NrzIRequestAnswersItsTransitions : Prop :=
  ∀ (s : State) (spb : Nat) (pol : Bool) (bits : List Bit), Ready s spb →
    withinMaxBits s.params bits.length = true →
      ∃ w, Answers s (.nrzI true pol bits) (.ok w) ∧ w.length = bits.length * spb ∧
        ∀ i j, i < bits.length → j < spb → w[i * spb + j]? =
          some (sampleOf (invertTimes (if pol then .high else .low) (countBefore true bits (i + 1))))

/-- Derived (42_ami_family.md §1, D24): Bipolar AMI answers with n × SPB samples; a 0 bit is 0, and a 1 bit is the seed
inverted once for each 1 among the bits up to and with it. -/
def Obligations.BipolarAmiRequestAnswersItsMarks : Prop :=
  ∀ (s : State) (spb : Nat) (pol : Bool) (bits : List Bit), Ready s spb →
    withinMaxBits s.params bits.length = true →
      ∃ w, Answers s (.bipolarAmi true pol bits) (.ok w) ∧ w.length = bits.length * spb ∧
        ∀ i j b, bits[i]? = some b → j < spb → w[i * spb + j]? = some (if b then
          sampleOf (invertTimes (if pol then .high else .low) (countBefore true bits (i + 1))) else .zero)

/-- Derived (42_ami_family.md §2, D24): Pseudoternary answers with n × SPB samples; a 1 bit is 0, and a 0 bit is the
seed inverted once for each 0 among the bits up to and with it. -/
def Obligations.PseudoternaryRequestAnswersItsMarks : Prop :=
  ∀ (s : State) (spb : Nat) (pol : Bool) (bits : List Bit), Ready s spb →
    withinMaxBits s.params bits.length = true →
      ∃ w, Answers s (.pseudoternary true pol bits) (.ok w) ∧ w.length = bits.length * spb ∧
        ∀ i j b, bits[i]? = some b → j < spb → w[i * spb + j]? = some (if b then .zero else
          sampleOf (invertTimes (if pol then .high else .low) (countBefore false bits (i + 1))))

/-- Derived (43_manchester.md §1, D10): Manchester answers with n × 2H samples, H = SPB div 2; the first half of bit i
is +1 for a 1 bit and -1 for a 0 bit, and the second half is its opposite. -/
def Obligations.ManchesterRequestAnswersItsHalves : Prop :=
  ∀ (s : State) (spb : Nat) (pv pol : Bool) (bits : List Bit), Ready s spb →
    withinMaxBits s.params bits.length = true →
      ∃ w, Answers s (.manchester pv pol bits) (.ok w) ∧ w.length = bits.length * (2 * (spb / 2)) ∧
        ∀ i j b, bits[i]? = some b → j < spb / 2 →
          w[i * (2 * (spb / 2)) + j]? = some (if b then Sample.pos else Sample.neg) ∧
          w[i * (2 * (spb / 2)) + spb / 2 + j]? = some (if b then Sample.neg else Sample.pos)

/-- Derived (43_manchester.md §2, C3, D10, D21): Differential Manchester answers with n × 2H samples; with L the seed
inverted once for each 1 among the bits before i, the halves of bit i are L and -L for a 1 bit, -L and L for a 0
bit. -/
def Obligations.DifferentialManchesterRequestAnswersItsHalves : Prop :=
  ∀ (s : State) (spb : Nat) (pol : Bool) (bits : List Bit), Ready s spb →
    withinMaxBits s.params bits.length = true →
      ∃ w, Answers s (.differentialManchester true pol bits) (.ok w) ∧ w.length = bits.length * (2 * (spb / 2)) ∧
        ∀ i j b, bits[i]? = some b → j < spb / 2 →
          w[i * (2 * (spb / 2)) + j]? = some (sampleOf (if b then
            invertTimes (if pol then .high else .low) (countBefore true bits i) else
            negPolarity (invertTimes (if pol then .high else .low) (countBefore true bits i)))) ∧
          w[i * (2 * (spb / 2)) + spb / 2 + j]? = some (sampleOf (if b then
            negPolarity (invertTimes (if pol then .high else .low) (countBefore true bits i)) else
            invertTimes (if pol then .high else .low) (countBefore true bits i)))

/-- Derived (R99, R145): complementing the seed negates every sample of an NRZ-I and of a Differential Manchester
response. -/
def Obligations.ComplementingTheSeedNegatesTheWaveform : Prop :=
  ∀ (s : State) (spb : Nat) (bits : List Bit), Ready s spb → withinMaxBits s.params bits.length = true →
    (∃ w, Answers s (.nrzI true true bits) (.ok w) ∧ Answers s (.nrzI true false bits) (.ok (w.map negSample))) ∧
    ∃ w, Answers s (.differentialManchester true true bits) (.ok w) ∧
      Answers s (.differentialManchester true false bits) (.ok (w.map negSample))

/-- Derived (R113, R115, R123, R125, D24): two marks with no mark between them have opposite signs, and the first mark
is the opposite of the seed. A mark is a 1 in Bipolar AMI and a 0 in Pseudoternary. -/
def Obligations.MarksAlternateInSign : Prop :=
  ∀ (s : State) (spb : Nat) (pol mark : Bool) (bits : List Bit), Ready s spb →
    withinMaxBits s.params bits.length = true →
      ∃ w, Answers s (if mark then .bipolarAmi true pol bits else .pseudoternary true pol bits) (.ok w) ∧
        (∀ i, bits[i]? = some mark → (∀ m < i, bits[m]? ≠ some mark) →
          w[i * spb]? = some (negSample (sampleOf (if pol then .high else .low)))) ∧
        ∀ i j, i < j → bits[i]? = some mark → bits[j]? = some mark → (∀ m, i < m → m < j → bits[m]? ≠ some mark) →
          ∃ v, v ≠ Sample.zero ∧ w[i * spb]? = some v ∧ w[j * spb]? = some (negSample v)

/-- Derived (R126): the Pseudoternary response to bits is the AMI response, with the same seed, to the complemented
bits. -/
def Obligations.PseudoternaryIsAmiOfTheComplement : Prop :=
  ∀ (s : State) (spb : Nat) (pol : Bool) (bits : List Bit), Ready s spb →
    withinMaxBits s.params bits.length = true →
      ∃ w, Answers s (.pseudoternary true pol bits) (.ok w) ∧
        Answers s (.bipolarAmi true pol (bits.map (fun b => !b))) (.ok w)

/-- Derived (R133): with H at least 1, a Manchester block has exactly one transition inside it, at its middle, and
there is one between two blocks exactly when their bits are equal. -/
def Obligations.ManchesterTransitionsAtMidBit : Prop :=
  ∀ (s : State) (spb : Nat) (pv pol : Bool) (bits : List Bit), Ready s spb → 2 ≤ spb →
    withinMaxBits s.params bits.length = true →
      ∃ w, Answers s (.manchester pv pol bits) (.ok w) ∧
        (∀ i j, i < bits.length → j + 1 < 2 * (spb / 2) →
          (w[i * (2 * (spb / 2)) + j]? ≠ w[i * (2 * (spb / 2)) + j + 1]? ↔ j + 1 = spb / 2)) ∧
        ∀ i b b', bits[i]? = some b → bits[i + 1]? = some b' →
          (w[i * (2 * (spb / 2)) + 2 * (spb / 2) - 1]? ≠ w[(i + 1) * (2 * (spb / 2))]? ↔ b = b')

/-- Derived (R143, R144, C3, D21): with H at least 1, a Differential Manchester block has exactly one transition inside
it, at its middle, and there is one at its start exactly when its bit is 0, the seed standing before block 0. -/
def Obligations.DifferentialManchesterBoundaryTransitionsAtZeros : Prop :=
  ∀ (s : State) (spb : Nat) (pol : Bool) (bits : List Bit), Ready s spb → 2 ≤ spb →
    withinMaxBits s.params bits.length = true →
      ∃ w, Answers s (.differentialManchester true pol bits) (.ok w) ∧
        (∀ i j, i < bits.length → j + 1 < 2 * (spb / 2) →
          (w[i * (2 * (spb / 2)) + j]? ≠ w[i * (2 * (spb / 2)) + j + 1]? ↔ j + 1 = spb / 2)) ∧
        (∀ b, bits[0]? = some b → (w[0]? ≠ some (sampleOf (if pol then .high else .low)) ↔ b = false)) ∧
        ∀ i b, bits[i + 1]? = some b →
          (w[i * (2 * (spb / 2)) + 2 * (spb / 2) - 1]? ≠ w[(i + 1) * (2 * (spb / 2))]? ↔ b = false)

/-- Derived (R146): the first-half levels of Differential Manchester are the NRZ-I levels of the same bits under the
opposite seed. -/
def Obligations.DifferentialManchesterFirstHalvesAreNrzI : Prop :=
  ∀ (s : State) (spb : Nat) (pol : Bool) (bits : List Bit), Ready s spb →
    withinMaxBits s.params bits.length = true →
      ∃ wd wn, Answers s (.differentialManchester true pol bits) (.ok wd) ∧
        Answers s (.nrzI true (!pol) bits) (.ok wn) ∧
        ∀ i j, i < bits.length → j < spb / 2 → wd[i * (2 * (spb / 2)) + j]? = wn[i * spb + j]?

/-- Derived (R176; D24 and C3 for the schemes they concern): a stateless request may be split anywhere; a stateful one
may be split when the second request is seeded with the final LEVEL of the first: the seed inverted once for each 1 of
the first part, and in Pseudoternary once for each 0. -/
def Obligations.RequestsSplitAtTheFinalLevel : Prop :=
  ∀ (s : State) (spb : Nat) (pv pol pol' : Bool) (bits₁ bits₂ : List Bit), Ready s spb →
    withinMaxBits s.params (bits₁ ++ bits₂).length = true →
      (∀ i ∈ [Instr.nrzL pv pol, Instr.manchester pv pol], ∃ w₁ w₂, Answers s (i bits₁) (.ok w₁) ∧
        Answers s (i bits₂) (.ok w₂) ∧ Answers s (i (bits₁ ++ bits₂)) (.ok (w₁ ++ w₂))) ∧
      (invertTimes (if pol then .high else .low) (bits₁.count true) = (if pol' then .high else .low) →
        ∀ i ∈ [Instr.nrzI true, Instr.bipolarAmi true, Instr.differentialManchester true], ∃ w₁ w₂,
          Answers s (i pol bits₁) (.ok w₁) ∧ Answers s (i pol' bits₂) (.ok w₂) ∧
            Answers s (i pol (bits₁ ++ bits₂)) (.ok (w₁ ++ w₂))) ∧
      (invertTimes (if pol then .high else .low) (bits₁.count false) = (if pol' then .high else .low) →
        ∃ w₁ w₂, Answers s (.pseudoternary true pol bits₁) (.ok w₁) ∧
          Answers s (.pseudoternary true pol' bits₂) (.ok w₂) ∧
            Answers s (.pseudoternary true pol (bits₁ ++ bits₂)) (.ok (w₁ ++ w₂)))

/-! ## The whole machine -/

/-- Derived (R20, R24 to R27, D3): the reset state meets both invariants. -/
def Obligations.ResetMeetsTheInvariants : Prop := PhaseInv State.reset ∧ FoldInv State.reset

/-- Derived (R20, R24 to R27, D3): every step from every state that meets the invariant keeps it. -/
def Obligations.EveryStepKeepsThePhaseInvariant : Prop :=
  ∀ s t : State, PhaseInv s → step s = .next t → PhaseInv t

/-- Derived (R22, R73): every step keeps that LEVEL and WAVE are the pure fold of the bits consumed so far. -/
def Obligations.EveryStepKeepsTheFoldInvariant : Prop :=
  ∀ s t : State, FoldInv s → step s = .next t → FoldInv t

/-- Derived (R156, R164; the refusals are D9, D14, D18): from a state that meets the invariant no step faults, a step
with no request arriving always has a next state, and an arriving request is refused by name or has one. -/
def Obligations.NoStepFaults : Prop :=
  ∀ s : State, PhaseInv s →
    ((∀ r rest, s.inbox ≠ .request r :: rest) → ∃ t, step s = .next t) ∧
    ∀ r rest, s.inbox = .request r :: rest →
      (∃ t, step s = .next t) ∨ step s = .refused .badSpb ∨ step s = .refused .busy ∨ step s = .refused .tooManyBits

/-- R171 (and R29, D2, for the steps that are no reset): no step, a reset included, writes an instance parameter. -/
def Obligations.InstanceParametersAreNeverWritten : Prop :=
  ∀ s t : State, step s = .next t → t.params = s.params

/-- R46: a step gives the host nothing, or one response that is the complete waveform of the request's bits, of length
n × blocklen, or an error with no samples. -/
def Obligations.TheHostNeverReceivesAPrefix : Prop :=
  ∀ s t : State, PhaseInv s → FoldInv s → step s = .next t →
    t.outbox = s.outbox ∨
      (s.phase = .err ∧ ∃ e, s.result = some (.err e) ∧ t.outbox = s.outbox ++ [.err e]) ∨
      (s.phase = .done ∧ t.outbox = s.outbox ++ [.ok s.wave] ∧
        ∃ sch spb level₀, s.schemeR = some sch ∧ samplesPerBit s.params = some spb ∧
          s.wave.length = s.bits.length * blocklen sch spb ∧
          encodeFold sch spb level₀ s.bits = some (s.level, s.wave))

/-- R25: during RUN each step appends exactly one block, or finishes and leaves WAVE alone; the response carries WAVE
whole; in ERR, WAVE is empty. -/
def Obligations.WaveOnlyGrowsByWholeBlocks : Prop :=
  ∀ s t : State, PhaseInv s → step s = .next t →
    (s.phase = .run → t.phase = .run → ∃ sch spb blk, s.schemeR = some sch ∧ samplesPerBit s.params = some spb ∧
      blk.length = blocklen sch spb ∧ t.wave = s.wave ++ blk) ∧
    (s.phase = .run → t.phase = .done → t.wave = s.wave) ∧
    (s.phase = .done → t.outbox ≠ s.outbox → t.outbox = s.outbox ++ [.ok s.wave]) ∧
    (t.phase = .err → t.wave = [])

/-- Derived (10_state.md §2, R23): during RUN, CURSOR goes up by exactly 1 per step, within n, while BITS stays; the finish leaves it at n. -/
def Obligations.CursorMovesOnByOne : Prop :=
  ∀ s t : State, PhaseInv s → step s = .next t → s.phase = .run →
    (t.phase = .run → t.cursor = s.cursor + 1 ∧ t.cursor ≤ t.bits.length ∧ t.bits = s.bits) ∧
    (t.phase = .done → t.cursor = s.cursor ∧ t.cursor = t.bits.length ∧ t.bits = s.bits) ∧
    (t.phase = .run ∨ t.phase = .done ∨ t.phase = .idle)

/-- Derived (R73, R155, R82): the machine's answer to a request is the pure function of the request, SPB and MAX_BITS,
and it refuses where that function does. -/
def Obligations.RequestsAreAnsweredByThePureFunction : Prop :=
  ∀ (s : State) (spb : Nat) (i : Instr), Ready s spb →
    (∀ r, pureAnswer s.params i = .ok r → Answers s i r) ∧
    ∀ e, pureAnswer s.params i = .error e → exec i s = .refused e

/-- Derived (R155, R157): an admitted request (one with an error, or one within MAX_BITS) has exactly one response. -/
def Obligations.EveryAdmittedRequestHasExactlyOneResponse : Prop :=
  ∀ (s : State) (spb : Nat) (i : Instr), Ready s spb →
    (i.decoded = .unrecognised ∨
      (∃ sch, i.decoded = .scheme sch none ∧ sch.requiresPol = true) ∨
      withinMaxBits s.params i.bits.length = true) →
      ∃ r, Answers s i r ∧ ∀ r', Answers s i r' → r' = r

/-- Derived (R82, R83, R174): a response depends on the request, SPB and MAX_BITS alone: not on the rates behind SPB,
and not on anything an earlier request left in the state. -/
def Obligations.ResponsesDependOnTheRequestAlone : Prop :=
  ∀ (s s' : State) (spb : Nat) (i : Instr) (r : Response), Ready s spb → Ready s' spb →
    s.params.maxBits = s'.params.maxBits → Answers s i r → Answers s' i r

/-- Derived (R77, R82, R174, R177; log 2 for the schedule): a host that issues requests one after another and waits for
each receives the pure answers in order, and the block ends as it began. -/
def Obligations.ProgramsAreAnsweredInOrder : Prop :=
  ∀ (s : State) (requests : List Request) (answers : List Response), PhaseInv s → s.phase = .idle →
    pureAnswers s.params requests = .ok answers → s.inbox = programEvents requests →
      Host.Core.run Sys2Proof.core (programEvents requests).length s =
        .next { s with inbox := [], outbox := s.outbox ++ answers }

/-! ## The text boundary -/

/-- Derived (R43; D25 for the premise, R63's, that the codes are 0 to 127; D4, D5, D6 and D22 for the CFG word; log 9
for POL = 0 without `init=`): character k of a text, with 8-bit code c, supplies bits[8k + j] = c[7 - j], and the CFG
word is that of the name and of `init=`. -/
def Obligations.TextExpandsMostSignificantBitFirst : Prop :=
  ∀ (name text : List Char) (init : Option Polarity), (∀ c ∈ text, c.toNat ≤ 127) →
    ∃ r, assembleEncodeText name text init = .ok r ∧ NotationCfg name init r.cfg ∧
      r.bits.length = 8 * text.length ∧
      ∀ k j c, text[k]? = some c → j < 8 → r.bits[8 * k + j]? = some (c.toNat.testBit (7 - j))

/-- Derived (D7, D22, D25; D4, D5, D6 for the CFG word; log 9 for POL = 0 without `init=`): a bit string of 0s and 1s
assembles to its bits in order and a text of codes 0 to 127 to 8 bits per character, each with the CFG word of the name
(111 for every name but the six) and of `init=`; a character outside the notation is refused at the text boundary. -/
def Obligations.TheTextBoundaryRefusesOtherCharacters : Prop :=
  ∀ (name chars : List Char) (init : Option Polarity),
    ((∀ c ∈ chars, c = '0' ∨ c = '1') →
      ∃ r, assembleEncode name chars init = .ok r ∧ NotationCfg name init r.cfg ∧
        r.bits = chars.map (fun c => decide (c = '1'))) ∧
    ((∀ c ∈ chars, c.toNat ≤ 127) →
      ∃ r, assembleEncodeText name chars init = .ok r ∧ NotationCfg name init r.cfg ∧
        r.bits.length = 8 * chars.length) ∧
    ((∃ c ∈ chars, c ≠ '0' ∧ c ≠ '1') → assembleEncode name chars init = .error .badBitChar) ∧
    ((∃ c ∈ chars, 127 < c.toNat) → assembleEncodeText name chars init = .error .badTextChar)
end

