-- ==== Sys2Proof/Laws/Decode.lean ====
section
/-! SUPPORT. The fields of a configuration word, read from a built word and put together again, and the codes of the
samples. -/

namespace Sys2Proof

@[simp] theorem cfgScheme_cfgWord : ∀ (pol pv : Bool) (code : SchemeCode), cfgScheme (cfgWord pol pv code) = code := by
  decide

@[simp] theorem cfgPv_cfgWord : ∀ (pol pv : Bool) (code : SchemeCode), cfgPv (cfgWord pol pv code) = pv := by decide

@[simp] theorem cfgPol_cfgWord : ∀ (pol pv : Bool) (code : SchemeCode), cfgPol (cfgWord pol pv code) = pol := by decide

/-- A word is its three fields. -/
theorem cfgWord_fields : ∀ w : CfgWord, cfgWord (cfgPol w) (cfgPv w) (cfgScheme w) = w := by decide

/-- The mask of the opcode table leaves SCHEME alone. -/
theorem cfgWord_mask : ∀ (pol pv : Bool) (code : SchemeCode), cfgWord pol pv code &&& 0b00111#5 = 0#2 ++ code := by
  decide

@[simp] theorem Sample.ofCode_code (v : Sample) : Sample.ofCode v.code = some v := by cases v <;> rfl

@[simp] theorem Sample.code_wf (v : Sample) : SampleCode.wf v.code = true := by cases v <;> rfl

end Sys2Proof
end

