-- ==== Sys2Proof/Laws/State.lean ====
section
/-! SUPPORT. One lemma per field per update of State, each true by rfl, so that no proof unfolds a record update. -/

namespace Sys2Proof.Machine

section raiseError
variable (s : State) (e : ErrorKind)
@[simp] theorem State.raiseError_phase : (s.raiseError e).phase = .err := rfl
@[simp] theorem State.raiseError_schemeR : (s.raiseError e).schemeR = s.schemeR := rfl
@[simp] theorem State.raiseError_level : (s.raiseError e).level = s.level := rfl
@[simp] theorem State.raiseError_bits : (s.raiseError e).bits = s.bits := rfl
@[simp] theorem State.raiseError_cursor : (s.raiseError e).cursor = s.cursor := rfl
@[simp] theorem State.raiseError_wave : (s.raiseError e).wave = [] := rfl
@[simp] theorem State.raiseError_result : (s.raiseError e).result = some (.err e) := rfl
@[simp] theorem State.raiseError_params : (s.raiseError e).params = s.params := rfl
@[simp] theorem State.raiseError_inbox : (s.raiseError e).inbox = s.inbox := rfl
@[simp] theorem State.raiseError_outbox : (s.raiseError e).outbox = s.outbox := rfl
end raiseError

section startRun
variable (s : State) (sch : Scheme) (level : Option Polarity) (bits : List Bit)
@[simp] theorem State.startRun_phase : (s.startRun sch level bits).phase = .run := rfl
@[simp] theorem State.startRun_schemeR : (s.startRun sch level bits).schemeR = some sch := rfl
@[simp] theorem State.startRun_level : (s.startRun sch level bits).level = level := rfl
@[simp] theorem State.startRun_bits : (s.startRun sch level bits).bits = bits := rfl
@[simp] theorem State.startRun_cursor : (s.startRun sch level bits).cursor = 0 := rfl
@[simp] theorem State.startRun_wave : (s.startRun sch level bits).wave = [] := rfl
@[simp] theorem State.startRun_result : (s.startRun sch level bits).result = s.result := rfl
@[simp] theorem State.startRun_params : (s.startRun sch level bits).params = s.params := rfl
@[simp] theorem State.startRun_inbox : (s.startRun sch level bits).inbox = s.inbox := rfl
@[simp] theorem State.startRun_outbox : (s.startRun sch level bits).outbox = s.outbox := rfl
end startRun

section emitBlock
variable (s : State) (level : Option Polarity) (blk : Waveform)
@[simp] theorem State.emitBlock_phase : (s.emitBlock level blk).phase = s.phase := rfl
@[simp] theorem State.emitBlock_schemeR : (s.emitBlock level blk).schemeR = s.schemeR := rfl
@[simp] theorem State.emitBlock_level : (s.emitBlock level blk).level = level := rfl
@[simp] theorem State.emitBlock_bits : (s.emitBlock level blk).bits = s.bits := rfl
@[simp] theorem State.emitBlock_cursor : (s.emitBlock level blk).cursor = s.cursor + 1 := rfl
@[simp] theorem State.emitBlock_wave : (s.emitBlock level blk).wave = s.wave ++ blk := rfl
@[simp] theorem State.emitBlock_result : (s.emitBlock level blk).result = s.result := rfl
@[simp] theorem State.emitBlock_params : (s.emitBlock level blk).params = s.params := rfl
@[simp] theorem State.emitBlock_inbox : (s.emitBlock level blk).inbox = s.inbox := rfl
@[simp] theorem State.emitBlock_outbox : (s.emitBlock level blk).outbox = s.outbox := rfl
end emitBlock

section finish
variable (s : State)
@[simp] theorem State.finish_phase : s.finish.phase = .done := rfl
@[simp] theorem State.finish_schemeR : s.finish.schemeR = s.schemeR := rfl
@[simp] theorem State.finish_level : s.finish.level = s.level := rfl
@[simp] theorem State.finish_bits : s.finish.bits = s.bits := rfl
@[simp] theorem State.finish_cursor : s.finish.cursor = s.cursor := rfl
@[simp] theorem State.finish_wave : s.finish.wave = s.wave := rfl
@[simp] theorem State.finish_result : s.finish.result = some .ok := rfl
@[simp] theorem State.finish_params : s.finish.params = s.params := rfl
@[simp] theorem State.finish_inbox : s.finish.inbox = s.inbox := rfl
@[simp] theorem State.finish_outbox : s.finish.outbox = s.outbox := rfl
end finish

section answered
variable (s : State) (r : Response)
@[simp] theorem State.answered_phase : (s.answered r).phase = .idle := rfl
@[simp] theorem State.answered_schemeR : (s.answered r).schemeR = none := rfl
@[simp] theorem State.answered_level : (s.answered r).level = none := rfl
@[simp] theorem State.answered_bits : (s.answered r).bits = [] := rfl
@[simp] theorem State.answered_cursor : (s.answered r).cursor = 0 := rfl
@[simp] theorem State.answered_wave : (s.answered r).wave = [] := rfl
@[simp] theorem State.answered_result : (s.answered r).result = none := rfl
@[simp] theorem State.answered_params : (s.answered r).params = s.params := rfl
@[simp] theorem State.answered_inbox : (s.answered r).inbox = s.inbox := rfl
@[simp] theorem State.answered_outbox : (s.answered r).outbox = s.outbox ++ [r] := rfl
end answered

section resetBlock
variable (s : State)
@[simp] theorem State.resetBlock_phase : s.resetBlock.phase = .idle := rfl
@[simp] theorem State.resetBlock_schemeR : s.resetBlock.schemeR = none := rfl
@[simp] theorem State.resetBlock_level : s.resetBlock.level = none := rfl
@[simp] theorem State.resetBlock_bits : s.resetBlock.bits = [] := rfl
@[simp] theorem State.resetBlock_cursor : s.resetBlock.cursor = 0 := rfl
@[simp] theorem State.resetBlock_wave : s.resetBlock.wave = [] := rfl
@[simp] theorem State.resetBlock_result : s.resetBlock.result = none := rfl
@[simp] theorem State.resetBlock_params : s.resetBlock.params = s.params := rfl
@[simp] theorem State.resetBlock_inbox : s.resetBlock.inbox = s.inbox := rfl
@[simp] theorem State.resetBlock_outbox : s.resetBlock.outbox = s.outbox := rfl
end resetBlock

end Sys2Proof.Machine
end

