-- ==== Sys2Proof/Laws/Ops.lean ====
section
/-! SUPPORT. What each shared operation can do, said once: values and blocks, the step rules, and one inversion lemma
for acceptance, the fold step, the response, the block's transition, exec and step. -/

namespace Sys2Proof.Machine

/-! ## Values and blocks -/

@[simp] theorem negPolarity_negPolarity (p : Polarity) : negPolarity (negPolarity p) = p := by cases p <;> rfl

@[simp] theorem negSample_negSample (v : Sample) : negSample (negSample v) = v := by cases v <;> rfl

@[simp] theorem negSample_zero : negSample .zero = .zero := rfl

@[simp] theorem sampleOf_negPolarity (p : Polarity) : sampleOf (negPolarity p) = negSample (sampleOf p) := by
  cases p <;> rfl

@[simp] theorem sampleOf_ne_zero (p : Polarity) : sampleOf p ≠ .zero := by cases p <;> decide

@[simp] theorem sampleValue_negSample (v : Sample) : sampleValue (negSample v) = -sampleValue v := by cases v <;> rfl

@[simp] theorem expand_length (v : Sample) (k : Nat) : (expand v k).length = k := by simp [expand]

@[simp] theorem expand_zero (v : Sample) : expand v 0 = [] := rfl

@[simp] theorem expand_map_negSample (v : Sample) (k : Nat) : (expand v k).map negSample = expand (negSample v) k := by
  simp [expand]

@[simp] theorem expandHalves_length (v1 v2 : Sample) (spb : Nat) : (expandHalves v1 v2 spb).length = 2 * half spb := by
  simp [expandHalves]; omega

theorem samplesPerBit_pos {p : Params} {spb : Nat} (h : samplesPerBit p = some spb) : 0 < spb := by
  simp only [samplesPerBit] at h
  split at h
  · cases h
  · split at h
    · rename_i hpos; cases h; exact hpos.2
    · cases h

/-! ## The step rules -/

@[simp] theorem onLevel_some (f : Polarity → Bit → Polarity × Waveform) (p : Polarity) (b : Bit) :
    onLevel f (some p) b = some (some (f p b).1, (f p b).2) := rfl

/-- A step rule has a result whenever LEVEL holds a value where the scheme needs one (40_dispatch.md R74). -/
theorem schemeStep_isSome {sch : Scheme} {level : Option Polarity} (h : level.isSome = sch.requiresPol)
    (spb : Nat) (b : Bit) : ∃ level' blk, schemeStep sch spb level b = some (level', blk) := by
  cases sch <;> cases level <;> simp_all [schemeStep, Scheme.requiresPol, stepNrzL, stepManchester]

/-- A step rule keeps LEVEL a value or none. -/
theorem schemeStep_level {sch : Scheme} {spb : Nat} {level level' : Option Polarity} {b : Bit} {blk : Waveform}
    (h : schemeStep sch spb level b = some (level', blk)) : level'.isSome = level.isSome := by
  cases sch <;> cases level <;> simp_all [schemeStep, onLevel, stepNrzL, stepManchester]
  all_goals obtain ⟨rfl, -⟩ := h; rfl

/-- The fold over one more bit at the end. -/
theorem encodeFold_concat {sch : Scheme} {spb : Nat} {bits : List Bit} {level₀ level level' : Option Polarity}
    {w blk : Waveform} {b : Bit} (h : encodeFold sch spb level₀ bits = some (level, w))
    (hb : schemeStep sch spb level b = some (level', blk)) :
    encodeFold sch spb level₀ (bits ++ [b]) = some (level', w ++ blk) := by
  induction bits generalizing level₀ w with
  | nil => simp only [encodeFold, Option.some.injEq, Prod.mk.injEq] at h; obtain ⟨rfl, rfl⟩ := h; simp [encodeFold, hb]
  | cons a as ih =>
    simp only [encodeFold, List.cons_append] at h ⊢
    split at h
    · cases h
    · rename_i l1 blk1 h1
      split at h
      · cases h
      · rename_i l2 w2 h2
        simp only [Option.some.injEq, Prod.mk.injEq] at h
        obtain ⟨rfl, rfl⟩ := h
        simp [ih h2]

/-! ## What an operation can answer -/

/-- Acceptance answers a next state only in IDLE, on an admitted instance, and in one of three ways. -/
theorem acceptRequest_next {d : Decoded} {bits : List Bit} {s t : State} (h : acceptRequest d bits s = .next t) :
    s.phase = .idle ∧ (∃ spb, samplesPerBit s.params = some spb) ∧
      ((d = .unrecognised ∧ t = s.raiseError .unsupportedSchemeError) ∨
        (∃ sch, d = .scheme sch none ∧ sch.requiresPol = true ∧ t = s.raiseError .configError) ∨
        (∃ sch pol, d = .scheme sch pol ∧ (sch.requiresPol = true → pol.isSome = true) ∧
          withinMaxBits s.params bits.length = true ∧ t = s.startRun sch (seed sch pol) bits)) := by
  unfold acceptRequest at h
  split at h
  · cases h
  · rename_i spb hspb
    split at h
    · rename_i hidle
      refine ⟨hidle, ⟨spb, hspb⟩, ?_⟩
      split at h
      · cases h; exact .inl ⟨rfl, rfl⟩
      · rename_i sch pol
        split at h
        · rename_i hc
          cases h
          simp only [Bool.and_eq_true, Option.isNone_iff_eq_none] at hc
          exact .inr (.inl ⟨sch, by rw [hc.2], hc.1, rfl⟩)
        · rename_i hc
          split at h
          · rename_i hm
            cases h
            refine .inr (.inr ⟨sch, pol, rfl, ?_, hm, rfl⟩)
            intro hr
            cases pol <;> simp_all
          · cases h
    · cases h

/-- Acceptance never faults. -/
theorem acceptRequest_ne_fault (d : Decoded) (bits : List Bit) (s : State) (f : Fault) :
    acceptRequest d bits s ≠ .fault f := by
  unfold acceptRequest
  repeat' split
  all_goals simp

/-- exec is acceptance of the decoded configuration word and the operand bits. -/
theorem exec_eq_acceptRequest (i : Instr) (s : State) : exec i s = acceptRequest i.decoded i.bits s := by
  cases i <;> rfl

/-- The fold step answers a next state in one way: the scheme's step rule had a result, and its block was emitted. -/
theorem foldStep_next {s t : State} {b : Bit} (h : s.foldStep b = .next t) :
    ∃ spb sch level blk, samplesPerBit s.params = some spb ∧ s.schemeR = some sch ∧
      schemeStep sch spb s.level b = some (level, blk) ∧ t = s.emitBlock level blk := by
  unfold State.foldStep at h
  split at h
  · cases h
  · cases h
  · rename_i spb sch hspb hsch
    split at h
    · cases h
    · rename_i level blk hstep
      cases h
      exact ⟨spb, sch, level, blk, hspb, hsch, hstep, rfl⟩

/-- The fold step, when the scheme's step rule has a result. -/
theorem foldStep_eq {s : State} {b : Bit} {spb : Nat} {sch : Scheme} {level : Option Polarity} {blk : Waveform}
    (hspb : samplesPerBit s.params = some spb) (hsch : s.schemeR = some sch)
    (hstep : schemeStep sch spb s.level b = some (level, blk)) : s.foldStep b = .next (s.emitBlock level blk) := by
  simp [State.foldStep, hspb, hsch, hstep]

/-- The response answers a next state in one way: RESULT held a value, and its response was delivered. -/
theorem respond_next {s t : State} (h : s.respond = .next t) :
    ∃ r, s.result = some r ∧ t = s.answered (responseOf r s.wave) := by
  unfold State.respond at h
  split at h
  · cases h
  · rename_i r hr
    cases h
    exact ⟨r, hr, rfl⟩

/-- Everything the block's own transition can answer as a next state. -/
theorem advance_next {s t : State} (h : advance s = .next t) :
    (s.phase = .idle ∧ t = s) ∨
      (s.phase = .run ∧ ∃ b spb sch level blk, s.bits[s.cursor]? = some b ∧ samplesPerBit s.params = some spb ∧
        s.schemeR = some sch ∧ schemeStep sch spb s.level b = some (level, blk) ∧ t = s.emitBlock level blk) ∨
      (s.phase = .run ∧ s.bits.length ≤ s.cursor ∧ t = s.finish) ∨
      ((s.phase = .done ∨ s.phase = .err) ∧ ∃ r, s.result = some r ∧ t = s.answered (responseOf r s.wave)) := by
  unfold advance at h
  split at h
  · rename_i hp; cases h; exact .inl ⟨hp, rfl⟩
  · rename_i hp
    split at h
    · rename_i b hb
      obtain ⟨spb, sch, level, blk, h1, h2, h3, h4⟩ := foldStep_next h
      exact .inr (.inl ⟨hp, b, spb, sch, level, blk, hb, h1, h2, h3, h4⟩)
    · rename_i hb
      cases h
      exact .inr (.inr (.inl ⟨hp, by simpa using hb, rfl⟩))
  · rename_i hp; exact .inr (.inr (.inr ⟨.inl hp, respond_next h⟩))
  · rename_i hp; exact .inr (.inr (.inr ⟨.inr hp, respond_next h⟩))

/-- Everything a step can answer as a next state: a transition of the block, a reset, or an arrival. -/
theorem step_next {s t : State} (h : step s = .next t) :
    (s.inbox = [] ∧ advance s = .next t) ∨
      (∃ rest, s.inbox = .tick :: rest ∧ advance { s with inbox := rest } = .next t) ∨
      (∃ rest, s.inbox = .reset :: rest ∧ t = State.resetBlock { s with inbox := rest }) ∨
      (∃ r rest, s.inbox = .request r :: rest ∧
        acceptRequest (decodeRequest r).decoded (decodeRequest r).bits { s with inbox := rest } = .next t) := by
  unfold step at h
  split at h
  · rename_i hi; exact .inl ⟨hi, h⟩
  · rename_i rest hi; exact .inr (.inl ⟨rest, hi, h⟩)
  · rename_i rest hi; cases h; exact .inr (.inr (.inl ⟨rest, hi, rfl⟩))
  · rename_i r rest hi
    rw [exec_eq_acceptRequest] at h
    exact .inr (.inr (.inr ⟨r, rest, hi, h⟩))

end Sys2Proof.Machine
end

