-- ==== Sys2Proof/Laws/PerInstr.lean ====
section
/-! SUPPORT. The family EncodingMatchesTable: every instruction is well formed, and its configuration word matches its
row of spec/opcode_table.json under the row's mask. -/

namespace Sys2Proof.Laws.EncodingMatchesTable

/-- The `match` of an instruction's row in the opcode table. -/
def rowMatch : Instr → CfgWord
  | .nrzL _ _ _ => 0b00000#5
  | .nrzI _ _ _ => 0b00001#5
  | .bipolarAmi _ _ _ => 0b00010#5
  | .pseudoternary _ _ _ => 0b00011#5
  | .manchester _ _ _ => 0b00100#5
  | .differentialManchester _ _ _ => 0b00101#5
  | .unsupported110 _ _ _ => 0b00110#5
  | .unsupported111 _ _ _ => 0b00111#5

def Statement (i : Instr) : Prop := i.wf = true ∧ encodeCfg i &&& 0b00111#5 = rowMatch i

theorem nrzL (pv pol : Bool) (bits : List Bit) : Statement (.nrzL pv pol bits) := 
  ⟨rfl, (cfgWord_mask pol pv 0#3).trans rfl⟩

theorem nrzI (pv pol : Bool) (bits : List Bit) : Statement (.nrzI pv pol bits) := 
  ⟨rfl, (cfgWord_mask pol pv 1#3).trans rfl⟩

theorem bipolarAmi (pv pol : Bool) (bits : List Bit) : Statement (.bipolarAmi pv pol bits) := 
  ⟨rfl, (cfgWord_mask pol pv 2#3).trans rfl⟩

theorem pseudoternary (pv pol : Bool) (bits : List Bit) : Statement (.pseudoternary pv pol bits) := 
  ⟨rfl, (cfgWord_mask pol pv 3#3).trans rfl⟩

theorem manchester (pv pol : Bool) (bits : List Bit) : Statement (.manchester pv pol bits) := 
  ⟨rfl, (cfgWord_mask pol pv 4#3).trans rfl⟩

theorem differentialManchester (pv pol : Bool) (bits : List Bit) : Statement (.differentialManchester pv pol bits) := 
  ⟨rfl, (cfgWord_mask pol pv 5#3).trans rfl⟩

theorem unsupported110 (pv pol : Bool) (bits : List Bit) : Statement (.unsupported110 pv pol bits) := 
  ⟨rfl, (cfgWord_mask pol pv 6#3).trans rfl⟩

theorem unsupported111 (pv pol : Bool) (bits : List Bit) : Statement (.unsupported111 pv pol bits) := 
  ⟨rfl, (cfgWord_mask pol pv 7#3).trans rfl⟩

end Sys2Proof.Laws.EncodingMatchesTable
end

