-- ==== Sys2Proof/Laws/Run.lean ====
section
/-! SUPPORT. Runs of the machine behind Host/Core.lean, one step at a time, and the block while nothing happens. -/

namespace Sys2Proof.Machine

@[simp] theorem run_zero (s : State) : Host.Core.run Sys2Proof.core 0 s = .next s := rfl

/-- A run whose first step has a next state goes on from it. -/
theorem run_succ {s t : State} (h : step s = .next t) (k : Nat) :
    Host.Core.run Sys2Proof.core (k + 1) s = Host.Core.run Sys2Proof.core k t := by
  have h' : Sys2Proof.core.step s = .next t := h
  simp only [Host.Core.run, h']

/-- A block in IDLE with nothing arriving stays as it is. -/
theorem run_idle {s : State} (hidle : s.phase = .idle) (hquiet : s.inbox = []) (k : Nat) :
    Host.Core.run Sys2Proof.core k s = .next s := by
  induction k with
  | zero => rfl
  | succ k ih => rw [run_succ (t := s) (by simp [step, hquiet, advance, hidle]), ih]

/-- The fold of the bits that are left, run on a block whose host only waits. -/
theorem run_fold {sch : Scheme} {spb : Nat} {l : Option Polarity} {w : Waveform} (k : Nat) :
    ∀ (bits : List Bit) (s : State) (_ : encodeFold sch spb s.level bits = some (l, w))
      (_ : s.bits.drop s.cursor = bits) (_ : s.inbox = []) (_ : s.phase = .run) (_ : s.schemeR = some sch)
      (_ : samplesPerBit s.params = some spb),
      Host.Core.run Sys2Proof.core (bits.length + k) s = Host.Core.run Sys2Proof.core k
        ({ s with level := l, wave := s.wave ++ w, cursor := s.cursor + bits.length } : State) := by
  intro bits
  induction bits generalizing w with
  | nil =>
    intro s h _ _ _ _ _
    simp only [encodeFold, Option.some.injEq, Prod.mk.injEq] at h
    obtain ⟨rfl, rfl⟩ := h
    simp
  | cons b bs ih =>
    intro s h hbits hquiet hrun hsch hspb
    simp only [encodeFold] at h
    split at h
    · cases h
    · rename_i l1 blk1 hstep
      split at h
      · cases h
      · rename_i l2 w2 hrest
        simp only [Option.some.injEq, Prod.mk.injEq] at h
        obtain ⟨rfl, rfl⟩ := h
        have hb : s.bits[s.cursor]? = some b := by
          have h0 : (s.bits.drop s.cursor)[0]? = (b :: bs)[0]? := by rw [hbits]
          simpa using h0
        have hnext : step s = .next (s.emitBlock l1 blk1) := by
          simp [step, hquiet, advance, hrun, hb, foldStep_eq hspb hsch hstep]
        rw [show (b :: bs).length + k = (bs.length + k) + 1 by simp; omega, run_succ hnext,
          ih (s.emitBlock l1 blk1) hrest (by simp [← List.drop_drop, hbits]) hquiet hrun hsch hspb]
        simp [State.emitBlock, Nat.add_comm, Nat.add_left_comm]

/-- The fold has a result whenever the seed is one the scheme admits. -/
theorem encodeFold_isSome (sch : Scheme) (spb : Nat) :
    ∀ (bits : List Bit) (level : Option Polarity), level.isSome = sch.requiresPol →
      ∃ last w, encodeFold sch spb level bits = some (last, w) := by
  intro bits
  induction bits with
  | nil => intro level _; exact ⟨level, [], rfl⟩
  | cons b bs ih =>
    intro level h
    obtain ⟨l1, blk, h1⟩ := schemeStep_isSome h spb b
    obtain ⟨l2, w, h2⟩ := ih l1 (by rw [schemeStep_level h1, h])
    exact ⟨l2, blk ++ w, by simp [encodeFold, h1, h2]⟩

end Sys2Proof.Machine
end

