-- ==== Sys2Proof/Laws/Text.lean ====
section
/-! SUPPORT. What the parts of a line of the notation are: a line written as 30_encoding.md R62 or R63 prints it
assembles to the request of its fields, whatever its scheme name is. -/

namespace Sys2Proof.Machine

@[simp] theorem requestOfFields_ok (name : List Char) (bits : List Bit) (init : Option Polarity) :
    requestOfFields name (.ok bits) init = .ok { cfg := cfgOfNotation (schemeCodeOfName name) init, bits := bits } :=
  rfl

@[simp] theorem requestOfFields_error (name : List Char) (r : Refusal) (init : Option Polarity) :
    requestOfFields name (.error r) init = .error r := rfl

@[simp] theorem afterPrefix_append (p l : List Char) : afterPrefix p (p ++ l) = some l := by
  induction p with
  | nil => rfl
  | cons c cs ih => simp [afterPrefix, ih]

@[simp] theorem beforeSuffix_append (suffix l : List Char) : beforeSuffix suffix (l ++ suffix) = some l := by
  simp [beforeSuffix]

theorem beforeSuffix_other_last {suffix : List Char} {p c : Char} (hp : suffix.getLast? = some p) (hc : p ≠ c)
    (l : List Char) : beforeSuffix suffix (l ++ [c]) = none := by
  obtain ⟨ps, rfl⟩ := List.getLast?_eq_some_iff.mp hp
  simp [beforeSuffix, afterPrefix, hc]

/-- The name is all that stands before the opening quote, if it holds no quote itself. -/
theorem splitOpenQuote_name {name : List Char} (h : '"' ∉ name) (rest : List Char) :
    splitOpenQuote (name ++ ' ' :: '"' :: rest) = some (name, rest) := by
  induction name with
  | nil => rfl
  | cons c cs ih =>
    have hpre : afterPrefix [' ', '"'] (c :: (cs ++ ' ' :: '"' :: rest)) = none := by
      cases cs with
      | nil => simp [afterPrefix]
      | cons d ds =>
        have hd : ¬'"' = d := by rintro rfl; exact h (by simp)
        simp [afterPrefix, hd]
    simp only [List.cons_append, splitOpenQuote, hpre, ih fun hc => h (List.mem_cons_of_mem c hc)]

/-- How `init=` is written at the end of a line. -/
def initText : Option Polarity → List Char
  | none => []
  | some .high => initHighText
  | some .low => initLowText

theorem splitInit_initText (body : List Char) (init : Option Polarity) :
    splitInit (body ++ '"' :: initText init) = (body ++ ['"'], init) := by
  rcases init with _ | _ | _
  · have hh : beforeSuffix initHighText (body ++ ['"']) = none := beforeSuffix_other_last rfl (by decide) body
    have hl : beforeSuffix initLowText (body ++ ['"']) = none := beforeSuffix_other_last rfl (by decide) body
    simp only [splitInit, initText, hh, hl]
  · have hh := beforeSuffix_append initHighText (body ++ ['"'])
    rw [List.append_assoc, List.singleton_append] at hh
    simp only [splitInit, initText, hh]
  · have hh : beforeSuffix initHighText ((body ++ '"' :: initLowText.dropLast) ++ ['w']) = none :=
      beforeSuffix_other_last rfl (by decide) _
    rw [List.append_assoc] at hh
    have hl := beforeSuffix_append initLowText (body ++ ['"'])
    rw [List.append_assoc, List.singleton_append] at hl
    have e : '"' :: initLowText.dropLast ++ ['w'] = '"' :: initLowText := rfl
    rw [e] at hh
    simp only [splitInit, initText, hh, hl]

/-- The fields of a line, for every well-formed name: the six and any other. -/
theorem lineFields_line {name : List Char} (hq : '"' ∉ name) (hw : schemeNameWf name = true) (body : List Char)
    (init : Option Polarity) :
    lineFields (name ++ ' ' :: '"' :: (body ++ '"' :: initText init)) = some (name, body, init) := by
  simp [lineFields, splitOpenQuote_name hq, splitInit_initText, hw]

/-- A line of R62 is the request of its fields. -/
theorem assembleLine_encode {name : List Char} (hq : '"' ∉ name) (hw : schemeNameWf name = true) (body : List Char)
    (init : Option Polarity) :
    assembleLine ("ENCODE ".toList ++ (name ++ ' ' :: '"' :: (body ++ '"' :: initText init))) =
      assembleEncode name body init := by
  simp only [assembleLine, afterPrefix_append, lineFields_line hq hw]

/-- A line of R63 is the request of its fields. -/
theorem assembleLine_encodeText {name : List Char} (hq : '"' ∉ name) (hw : schemeNameWf name = true)
    (body : List Char) (init : Option Polarity) :
    assembleLine ("ENCODE_TEXT ".toList ++ (name ++ ' ' :: '"' :: (body ++ '"' :: initText init))) =
      assembleEncodeText name body init := by
  have hno (l : List Char) : afterPrefix "ENCODE ".toList ("ENCODE_TEXT ".toList ++ l) = none := rfl
  simp only [assembleLine, hno, afterPrefix_append, lineFields_line hq hw]

end Sys2Proof.Machine
end

