-- ==== Sys2Proof/Tests/Slice0.lean ====
section
/-! SUPPORT. Tests with expected results from spec/95_test_vectors.md and the encoding tables, the smoke tests of
WellFormed, and for each statement with hypotheses a witness that meets them. -/

namespace Sys2Proof.Machine.Tests

/-- The next state of a step, if there is one. -/
def nextOf : Host.Outcome State Fault Refusal → Option State
  | .next s => some s
  | .fault _ => none
  | .refused _ => none

/-- The block in its reset state, with SPB = `k`. -/
def block (k : Nat) : State :=
  { State.reset with params := { Config.defaultParams with sampleRate := { num := k, den := 1 } } }

/-- The block of SPB = `k` with the bound MAX_BITS = `m`. -/
def bounded (k m : Nat) : State := { block k with params := { (block k).params with maxBits := some m } }

/-- The block in the middle of a request. -/
def running (k : Nat) (sch : Scheme) (level : Option Polarity) (bits : List Bit) (cursor : Nat) (wave : Waveform) :
    State :=
  { block k with phase := .run, schemeR := some sch, level := level, bits := bits, cursor := cursor, wave := wave }

/-- An instance whose SPB would be 1/2. -/
def halfSample : Params :=
  { sampleRate := { num := 1, den := 1 }, bitDuration := { num := 1, den := 2 }, maxBits := none }

/-! ## WellFormed: an ill-formed term for each check -/

theorem test_wf_spb_zero : Params.wf (block 0).params = false := by decide
theorem test_wf_spb_fraction : Params.wf halfSample = false := by decide
theorem test_wf_spb_no_number : Params.wf { halfSample with bitDuration := { num := 1, den := 0 } } = false := by decide
theorem test_wf_default : Params.wf Config.defaultParams = true := by decide
theorem test_wf_cfg_six_bits : cfgNatWf 32 = false := by decide
theorem test_wf_sample_code_10 : SampleCode.wf 0b10#2 = false := by decide
theorem test_wf_result_code_11 : ResultWord.wf 0b11#2 = false := by decide
theorem test_wf_bit_char_x : bitCharWf 'x' = false := by decide
theorem test_wf_text_char_233 : textCharWf (Char.ofNat 233) = false := by decide

/-! ## Decoding: words written from the patterns `P V S S S` of 30_encoding.md R50 and R51 -/

theorem test_decode_nrzL : decodeTableWord 8 0b00000 = some (.nrzL false false []) := by decide
theorem test_decode_nrzI : decodeTableWord 8 0b11001 = some (.nrzI true true []) := by decide
theorem test_decode_bipolarAmi : decodeTableWord 8 0b01010 = some (.bipolarAmi true false []) := by decide
theorem test_decode_pseudoternary : decodeTableWord 8 0b11011 = some (.pseudoternary true true []) := by decide
theorem test_decode_manchester : decodeTableWord 8 0b10100 = some (.manchester false true []) := by decide
theorem test_decode_differentialManchester :
    decodeTableWord 8 0b01101 = some (.differentialManchester true false []) := by decide
theorem test_decode_unsupported110 : decodeTableWord 8 0b00110 = some (.unsupported110 false false []) := by decide
theorem test_decode_unsupported111 : decodeTableWord 8 0b11111 = some (.unsupported111 true true []) := by decide
theorem test_decode_six_bits_rejected : decodeTableWord 8 0b100000 = none := by decide
/-- E2 of 95_test_vectors.md §3.2: CFG 0x12 is Bipolar-AMI with PV = 0. -/
theorem test_decoded_E2 : (decodeCfg 0x12#5 [true]).decoded = .scheme .bipolarAmi none := by decide

/-! ## One step: vectors of 95_test_vectors.md -/

/-- P1: the request is accepted in RUN, SCHEME_R = 001, LEVEL = +1, CURSOR = 0. -/
theorem test_accept_P1 : nextOf (exec (.nrzI true true [false, true]) (block 1)) =
    some (running 1 .nrzI (some .high) [false, true] 0 []) := by decide
/-- K1, second bit, SPB = 3. -/
theorem test_step_nrzL : (nextOf (step (running 3 .nrzL none [true, false] 1 [.pos, .pos, .pos]))).map State.wave =
    some [.pos, .pos, .pos, .neg, .neg, .neg] := by decide
/-- E9: NRZ-L with a polarity is accepted, and LEVEL holds no value. -/
theorem test_accept_nrzL_polarity_ignored : nextOf (exec (.nrzL true true [true]) (block 2)) =
    some (running 2 .nrzL none [true] 0 []) := by decide
/-- P1, bit 1 = 1: LEVEL = -1, block [-1]. -/
theorem test_step_nrzI : nextOf (step (running 1 .nrzI (some .high) [false, true] 1 [.pos])) =
    some (running 1 .nrzI (some .low) [false, true] 2 [.pos, .neg]) := by decide
/-- S3, bit 1 = 1 after a mark at +1: LEVEL = -1, block [-1]. -/
theorem test_step_bipolarAmi_mark :
    nextOf (step (running 1 .bipolarAmi (some .high) [true, true, false] 1 [.pos])) =
      some (running 1 .bipolarAmi (some .low) [true, true, false] 2 [.pos, .neg]) := by decide
/-- S3, bit 2 = 0: LEVEL stays -1, block [0]. -/
theorem test_step_bipolarAmi_space :
    nextOf (step (running 1 .bipolarAmi (some .low) [true, true, false] 2 [.pos, .neg])) =
      some (running 1 .bipolarAmi (some .low) [true, true, false] 3 [.pos, .neg, .zero]) := by decide
/-- K4, SPB = 3: bit 0 = 1 is [0,0,0] and LEVEL stays -1. -/
theorem test_step_pseudoternary_space : nextOf (step (running 3 .pseudoternary (some .low) [true, false] 0 [])) =
    some (running 3 .pseudoternary (some .low) [true, false] 1 [.zero, .zero, .zero]) := by decide
/-- K4, SPB = 3: bit 1 = 0 is [1,1,1] and LEVEL becomes +1. -/
theorem test_step_pseudoternary_mark :
    nextOf (step (running 3 .pseudoternary (some .low) [true, false] 1 [.zero, .zero, .zero])) =
      some (running 3 .pseudoternary (some .high) [true, false] 2 [.zero, .zero, .zero, .pos, .pos, .pos]) := by
  decide
/-- P5, SPB = 3: bit 0 = 1 is [1,-1], two samples and not three. -/
theorem test_step_manchester_odd_spb : nextOf (step (running 3 .manchester none [true, false] 0 [])) =
    some (running 3 .manchester none [true, false] 1 [.pos, .neg]) := by decide
/-- K7, SPB = 4: bit 1 = 0 is [-1,-1,1,1]. -/
theorem test_step_manchester_zero :
    (nextOf (step (running 4 .manchester none [false] 0 []))).map State.wave = some [.neg, .neg, .pos, .pos] := by
  decide
/-- 95_test_vectors.md §4, bits 11, init=High: the second block is [-1,1] (the rejected reading gives [1,-1]). -/
theorem test_step_differentialManchester_C3 :
    nextOf (step (running 2 .differentialManchester (some .low) [true, true] 1 [.pos, .neg])) =
      some (running 2 .differentialManchester (some .high) [true, true] 2 [.pos, .neg, .neg, .pos]) := by decide
/-- K8, SPB = 1: bit 0 = 1 from +1 emits nothing and LEVEL becomes -1. -/
theorem test_step_differentialManchester_spb1 :
    nextOf (step (running 1 .differentialManchester (some .high) [true, false] 0 [])) =
      some (running 1 .differentialManchester (some .low) [true, false] 1 []) := by decide
/-- E7: code 110 with no bits and no polarity. -/
theorem test_exec_unsupported110 : (nextOf (exec (.unsupported110 false false []) (block 1))).map State.result =
    some (some (.err .unsupportedSchemeError)) := by decide
/-- E8: code 111 with PV = POL = 1. -/
theorem test_exec_unsupported111 : (nextOf (exec (.unsupported111 true true [true]) (block 1))).map State.phase =
    some .err := by decide
/-- E11: three bits with MAX_BITS = 2 (the shared acceptance). -/
theorem test_too_many_bits :
    acceptRequest (.scheme .nrzI (some .high)) [true, false, true] (bounded 1 2) = .refused .tooManyBits := rfl
/-- A word of the table, presented after reset, is the request of the next step. -/
theorem test_withFetchWord : (nextOf (step (State.reset.withFetchWord 8 0b01101))).map State.level =
    some (some .low) := by decide

/-! ## The text boundary -/

/-- P2: `ENCODE_TEXT Differential-Manchester "A" init=Low`. -/
theorem test_line_P2 : assembleLine "ENCODE_TEXT Differential-Manchester \"A\" init=Low".toList =
    .ok { cfg := 0x0D#5, bits := [false, true, false, false, false, false, false, true] } := by rfl
/-- E6: `ENCODE Manchester-II "10"` assembles to SCHEME = 111. -/
theorem test_line_E6 : assembleLine "ENCODE Manchester-II \"10\"".toList =
    .ok { cfg := 0x07#5, bits := [true, false] } := by rfl
/-- E14: `ENCODE NRZ-L "1x0"`. -/
theorem test_line_E14 : assembleLine "ENCODE NRZ-L \"1x0\"".toList = .error .badBitChar := by rfl
/-- 30_encoding.md R64, R62: the spelling with a space is no alias, so it is a name other than the six and gives 111. -/
theorem test_line_R64 : assembleLine "ENCODE Bipolar AMI \"1\" init=Low".toList =
    .ok { cfg := 0x0F#5, bits := [true] } := by rfl
/-- Not of the form of R62: no quotes (log 10). -/
theorem test_line_without_quotes : assembleLine "ENCODE NRZ-L 10".toList = .error .badLine := by rfl

/-! ## Witnesses: what the hypotheses of the statements ask can be met -/

/-- A block of SPB = `k` is ready, for some `k` at the low end and the default. -/
theorem ready_block : Ready (block 1) 1 ∧ Ready (block 2) 2 ∧ Ready (block 3) 3 ∧ Ready State.reset 1000 :=
  ⟨⟨rfl, rfl, rfl⟩, ⟨rfl, rfl, rfl⟩, ⟨rfl, rfl, rfl⟩, ⟨rfl, rfl, rfl⟩⟩

theorem ready_bounded : Ready (bounded 2 2) 2 := ⟨rfl, rfl, rfl⟩

theorem test_meets_StepRunsTheDecodedRequest :
    (({ block 1 with inbox := [.request { cfg := 0x19#5, bits := [true] }] } : State).inbox =
      .request { cfg := 0x19#5, bits := [true] } :: []) ∧
    (({ block 1 with inbox := [.tick] } : State).inbox = .tick :: []) ∧ (block 1).inbox = [] := ⟨rfl, rfl, rfl⟩

theorem test_meets_IdleBlockWaits : (block 1).phase = .idle ∧ (block 1).inbox = [] ∧
    ({ block 1 with inbox := [.tick] } : State).phase = .idle ∧
    ({ block 1 with inbox := [.tick] } : State).inbox = .tick :: [] := ⟨rfl, rfl, rfl, rfl⟩

theorem test_meets_ResetAbandonsTheRequest :
    ({ running 1 .nrzI (some .low) [true] 0 [] with inbox := [.reset, .tick] } : State).inbox =
      .reset :: [.tick] := rfl

theorem test_meets_StatelessRequestsAreAccepted : (bounded 2 2).phase = .idle ∧
    samplesPerBit (bounded 2 2).params = some 2 ∧
    withinMaxBits (bounded 2 2).params [true, false].length = true := ⟨rfl, rfl, rfl⟩

theorem test_meets_StatefulRequestsAreAcceptedWithTheirSeed : (bounded 1 0).phase = .idle ∧
    samplesPerBit (bounded 1 0).params = some 1 ∧ withinMaxBits (bounded 1 0).params ([] : List Bit).length = true :=
  ⟨rfl, rfl, rfl⟩

theorem test_meets_MissingPolarityIsConfigError : (bounded 1 0).phase = .idle ∧
    samplesPerBit (bounded 1 0).params = some 1 ∧
    Instr.differentialManchester false true [true] ∈ [Instr.nrzI false true [true], .bipolarAmi false true [true],
      .pseudoternary false true [true], .differentialManchester false true [true]] := ⟨rfl, rfl, by decide⟩

theorem test_meets_ReservedSchemeCodesAreUnsupported : (block 1).phase = .idle ∧
    samplesPerBit (block 1).params = some 1 ∧ (block 1).inbox = [] ∧
    ∀ i ∈ [Instr.unsupported110 true false [], .unsupported111 true false []],
      i ∈ [Instr.unsupported110 true false [], .unsupported111 true false []] := ⟨rfl, rfl, rfl, by decide⟩

theorem test_meets_ErrorsAreRaisedExactlyByTheirCauses : (block 1).phase = .idle ∧ (block 1).result = none ∧
    samplesPerBit (block 1).params = some 1 := ⟨rfl, rfl, rfl⟩

theorem test_meets_ErrorsComeBeforeAnyComputation : (block 1).phase = .idle ∧ (block 1).inbox = [] ∧
    samplesPerBit (block 1).params = some 1 ∧ (Instr.unsupported110 true true [true]).decoded = .unrecognised ∧
    (Instr.nrzI false true []).decoded = .scheme .nrzI none ∧ Scheme.nrzI.requiresPol = true :=
  ⟨rfl, rfl, rfl, rfl, rfl, rfl⟩

theorem test_meets_ValidationReportsTheFirstCause : (bounded 1 1).phase = .idle ∧
    samplesPerBit (bounded 1 1).params = some 1 ∧ (∃ m, (bounded 1 1).params.maxBits = some m ∧
      m < (Instr.nrzI true true [true, true]).bits.length) := ⟨rfl, rfl, 1, rfl, by decide⟩

theorem test_meets_RequestsWhileBusyAreRefused :
    samplesPerBit (running 1 .nrzL none [true] 1 [.pos]).params = some 1 ∧
    (running 1 .nrzL none [true] 1 [.pos]).phase ≠ .idle ∧ ((block 1).raiseError .configError).phase ≠ .idle ∧
    (running 1 .nrzL none [true] 1 [.pos]).finish.phase ≠ .idle := ⟨rfl, by decide, by decide, by decide⟩

theorem test_meets_InstancesWithoutAPositiveIntegralSpbRefuse : samplesPerBit (block 0).params = none ∧
    samplesPerBit halfSample = none := ⟨rfl, rfl⟩

theorem test_meets_SamplesPerBitIsThePositiveIntegralProduct : samplesPerBit
    { sampleRate := { num := 8, den := 1 }, bitDuration := { num := 1, den := 2 }, maxBits := none } = some 4 := rfl

theorem test_meets_OneStepConsumesOneBit :
    let s := running 2 .differentialManchester (some .high) [true] 0 []
    s.inbox = [] ∧ s.phase = .run ∧ s.schemeR = some .differentialManchester ∧ samplesPerBit s.params = some 2 ∧
      s.bits[s.cursor]? = some true ∧
      schemeStep .differentialManchester 2 s.level true = some (some .low, [.pos, .neg]) :=
  ⟨rfl, rfl, rfl, rfl, rfl, rfl⟩

theorem test_meets_NrzLStepHoldsTheLevelOfTheBit :
    let s := running 1 .nrzL none [true, false] 1 [.pos]
    s.inbox = [] ∧ s.phase = .run ∧ s.schemeR = some .nrzL ∧ samplesPerBit s.params = some 1 ∧
      s.bits[s.cursor]? = some false := ⟨rfl, rfl, rfl, rfl, rfl⟩

/-- Both clauses of a stateful scheme's step: a 1 bit at CURSOR 0 and a 0 bit at CURSOR 1. -/
def StatefulStepHypotheses (sch : Scheme) : Prop :=
    let s := running 2 sch (some .low) [true, false] 0 []
    let u := running 2 sch (some .high) [true, false] 1 []
    (s.inbox = [] ∧ s.phase = .run ∧ s.schemeR = some sch ∧ s.level = some .low ∧
      samplesPerBit s.params = some 2 ∧ s.bits[s.cursor]? = some true) ∧
    (u.inbox = [] ∧ u.phase = .run ∧ u.schemeR = some sch ∧ u.level = some .high ∧
      samplesPerBit u.params = some 2 ∧ u.bits[u.cursor]? = some false)

theorem stateful_step_hypotheses (sch : Scheme) : StatefulStepHypotheses sch :=
  have hspb : samplesPerBit (block 2).params = some 2 := rfl
  ⟨⟨rfl, rfl, rfl, rfl, hspb, rfl⟩, ⟨rfl, rfl, rfl, rfl, hspb, rfl⟩⟩

theorem test_meets_NrzIStepInvertsOnOneBeforeEmitting : StatefulStepHypotheses .nrzI :=
  stateful_step_hypotheses _
theorem test_meets_AmiStepAlternatesOnMarks : StatefulStepHypotheses .bipolarAmi :=
  stateful_step_hypotheses _
theorem test_meets_PseudoternaryStepAlternatesOnZeros : StatefulStepHypotheses .pseudoternary :=
  stateful_step_hypotheses _
theorem test_meets_DifferentialManchesterStepFollowsTheLineLevel : StatefulStepHypotheses .differentialManchester :=
  stateful_step_hypotheses _

theorem test_meets_ManchesterStepSplitsTheBit :
    let s := running 2 .manchester none [true, false] 0 []
    let u := running 2 .manchester none [true, false] 1 []
    (s.inbox = [] ∧ s.phase = .run ∧ s.schemeR = some .manchester ∧ samplesPerBit s.params = some 2 ∧
      s.bits[s.cursor]? = some true) ∧ u.bits[u.cursor]? = some false := ⟨⟨rfl, rfl, rfl, rfl, rfl⟩, rfl⟩

theorem test_meets_EveryBlockHasTheLengthOfItsScheme :
    schemeStep .bipolarAmi 1 (some .low) false = some (some .low, [.zero]) ∧
    Scheme.bipolarAmi ∈ [Scheme.nrzL, .nrzI, .bipolarAmi, .pseudoternary] ∧
    schemeStep .manchester 1 none false = some (none, []) ∧
    Scheme.manchester ∈ [Scheme.manchester, .differentialManchester] := ⟨rfl, by decide, rfl, by decide⟩

theorem test_meets_TheLastBitIsFollowedByTheFinish :
    let s := running 1 .nrzL none [true] 1 [.pos]
    s.inbox = [] ∧ s.phase = .run ∧ s.cursor = s.bits.length := ⟨rfl, rfl, rfl⟩

theorem test_meets_TheResponseEndsTheRequest :
    let s := (running 1 .nrzL none [true] 1 [.pos]).finish
    let u := (block 1).raiseError .configError
    (s.inbox = [] ∧ s.phase = .done ∧ s.result = some .ok) ∧
    (u.inbox = [] ∧ u.phase = .err ∧ u.result = some (.err .configError)) := ⟨⟨rfl, rfl, rfl⟩, ⟨rfl, rfl, rfl⟩⟩

theorem test_meets_EmptyRequestsGiveTheEmptyWaveform : Ready (bounded 1 0) 1 ∧
    Instr.nrzI true true [] ∈ [Instr.nrzL true true [], .nrzI true true [], .bipolarAmi true true [],
      .pseudoternary true true [], .manchester true true [], .differentialManchester true true []] :=
  ⟨⟨rfl, rfl, rfl⟩, by decide⟩

theorem test_meets_AcceptedRequestsTakeOneStepPerBit : Ready (bounded 2 2) 2 ∧
    (Instr.nrzI true true [true, false]).decoded = .scheme .nrzI (some .high) ∧
    (Scheme.nrzI.requiresPol = true → (some Polarity.high).isSome = true) ∧
    withinMaxBits (bounded 2 2).params (Instr.nrzI true true [true, false]).bits.length = true ∧
    (2 ≤ (Instr.nrzI true true [true, false]).bits.length) := ⟨ready_bounded, rfl, fun _ => rfl, rfl, by decide⟩

theorem test_meets_LevelAfterTheFirstBits : Ready (bounded 2 2) 2 ∧
    withinMaxBits (bounded 2 2).params [true, false].length = true ∧ 2 ≤ [true, false].length ∧ 0 ≤ [true, false].length :=
  ⟨ready_bounded, rfl, by decide, by decide⟩

/-- What a statement about a whole request asks: a ready block and a number of bits within its bound, here exactly
MAX_BITS; and the indexes its clauses speak of, the last bit and the last sample of a block. -/
def WholeRequestHypotheses : Prop := Ready (bounded 2 2) 2 ∧
    withinMaxBits (bounded 2 2).params [true, false].length = true ∧ [true, false][1]? = some false ∧
    1 < [true, false].length ∧ 1 < 2 ∧ 0 < 2 / 2

theorem whole_request_hypotheses : WholeRequestHypotheses :=
  ⟨ready_bounded, rfl, rfl, by decide, by decide, by decide⟩

theorem test_meets_NrzLRequestAnswersItsBits : WholeRequestHypotheses := whole_request_hypotheses
theorem test_meets_NrzIRequestAnswersItsTransitions : WholeRequestHypotheses := whole_request_hypotheses
theorem test_meets_BipolarAmiRequestAnswersItsMarks : WholeRequestHypotheses := whole_request_hypotheses
theorem test_meets_PseudoternaryRequestAnswersItsMarks : WholeRequestHypotheses := whole_request_hypotheses
theorem test_meets_ManchesterRequestAnswersItsHalves : WholeRequestHypotheses := whole_request_hypotheses
theorem test_meets_DifferentialManchesterRequestAnswersItsHalves : WholeRequestHypotheses := whole_request_hypotheses
theorem test_meets_ComplementingTheSeedNegatesTheWaveform : WholeRequestHypotheses := whole_request_hypotheses
theorem test_meets_PseudoternaryIsAmiOfTheComplement : WholeRequestHypotheses := whole_request_hypotheses
theorem test_meets_DifferentialManchesterFirstHalvesAreNrzI : WholeRequestHypotheses := whole_request_hypotheses

/-- Bits 1 0 1: the first mark is at 0, and the marks at 0 and 2 have no mark between them. -/
theorem test_meets_MarksAlternateInSign : Ready (block 2) 2 ∧
    withinMaxBits (block 2).params [true, false, true].length = true ∧ [true, false, true][0]? = some true ∧
    (∀ m < 0, [true, false, true][m]? ≠ some true) ∧ [true, false, true][2]? = some true ∧
    (∀ m, 0 < m → m < 2 → [true, false, true][m]? ≠ some true) := by
  refine ⟨⟨rfl, rfl, rfl⟩, rfl, rfl, by omega, rfl, ?_⟩
  intro m h0 h2
  have hm : m = 1 := by omega
  simp [hm]

/-- SPB = 2 is the least SPB with a whole half: the one transition is at the sample 0 of each block. -/
def TransitionHypotheses : Prop := Ready (block 2) 2 ∧ 2 ≤ 2 ∧
    withinMaxBits (block 2).params [true, true].length = true ∧ 0 + 1 < 2 * (2 / 2) ∧ [true, true][0]? = some true ∧
    [true, true][0 + 1]? = some true

theorem test_meets_ManchesterTransitionsAtMidBit : TransitionHypotheses :=
  ⟨⟨rfl, rfl, rfl⟩, by decide, rfl, by decide, rfl, rfl⟩

theorem test_meets_DifferentialManchesterBoundaryTransitionsAtZeros : TransitionHypotheses :=
  test_meets_ManchesterTransitionsAtMidBit

theorem test_meets_RequestsSplitAtTheFinalLevel : Ready (bounded 2 2) 2 ∧
    withinMaxBits (bounded 2 2).params ([true] ++ [false]).length = true ∧
    invertTimes (if true then .high else .low) ([true].count true) = (if false then .high else .low) ∧
    invertTimes (if true then .high else .low) ([true].count false) = (if true then .high else .low) :=
  ⟨ready_bounded, rfl, rfl, rfl⟩

/-! ## States that meet the invariants, one in each phase, and their next states -/

theorem inv_idle : PhaseInv (block 2) := by simp [PhaseInv, block, State.reset]

theorem inv_run : PhaseInv (running 2 .nrzI (some .low) [true, false] 1 [.neg, .neg]) := by
  simp only [PhaseInv, running]
  exact ⟨.nrzI, 2, rfl, rfl, rfl, by decide, rfl, rfl, rfl⟩

theorem inv_done : PhaseInv (running 2 .nrzI (some .low) [true] 1 [.neg, .neg]).finish := by
  simp only [PhaseInv, running, State.finish]
  refine ⟨.nrzI, 2, ?_⟩
  decide

theorem inv_err : PhaseInv ((block 2).raiseError .configError) := by
  simp [PhaseInv, block, State.reset, State.raiseError]

theorem foldInv_run : FoldInv (running 2 .nrzI (some .low) [true, false] 1 [.neg, .neg]) :=
  fun _ => ⟨.nrzI, 2, some .high, rfl, rfl, rfl, rfl⟩

theorem foldInv_done : FoldInv (running 2 .nrzI (some .low) [true] 1 [.neg, .neg]).finish :=
  fun _ => ⟨.nrzI, 2, some .high, rfl, rfl, rfl, rfl⟩

/-- A step from RUN, from DONE and from ERR has a next state. -/
theorem test_invariant_states_step :
    (∃ t, step (running 2 .nrzI (some .low) [true, false] 1 [.neg, .neg]) = .next t) ∧
    (∃ t, step (running 2 .nrzI (some .low) [true] 1 [.neg, .neg]).finish = .next t) ∧
    ∃ t, step ((block 2).raiseError .configError) = .next t := ⟨⟨_, rfl⟩, ⟨_, rfl⟩, ⟨_, rfl⟩⟩

theorem test_meets_EveryStepKeepsThePhaseInvariant : ∃ s t, PhaseInv s ∧ step s = .next t := ⟨_, _, inv_run, rfl⟩
theorem test_meets_EveryStepKeepsTheFoldInvariant : ∃ s t, FoldInv s ∧ step s = .next t := ⟨_, _, foldInv_run, rfl⟩
theorem test_meets_InstanceParametersAreNeverWritten : ∃ t, step (block 2) = .next t := ⟨_, rfl⟩

theorem test_meets_NoStepFaults : PhaseInv (block 2) ∧ (∀ r rest, (block 2).inbox ≠ .request r :: rest) ∧
    ∃ s r rest, PhaseInv s ∧ s.inbox = .request r :: rest := by
  refine ⟨inv_idle, by simp [block, State.reset], { block 2 with inbox := [.request { cfg := 0#5, bits := [] }] },
    { cfg := 0#5, bits := [] }, [], ?_, rfl⟩
  simp [PhaseInv, block, State.reset]

/-- A step from DONE, which delivers, and one from RUN, which does not. -/
theorem test_meets_TheHostNeverReceivesAPrefix :
    (∃ s t, s.phase = .done ∧ PhaseInv s ∧ FoldInv s ∧ step s = .next t) ∧
    ∃ s t, s.phase = .run ∧ PhaseInv s ∧ FoldInv s ∧ step s = .next t :=
  ⟨⟨_, _, rfl, inv_done, foldInv_done, rfl⟩, ⟨_, _, rfl, inv_run, foldInv_run, rfl⟩⟩

/-- Each clause: RUN to RUN, RUN to DONE, DONE with a new response, and into ERR. -/
theorem test_meets_WaveOnlyGrowsByWholeBlocks :
    (∃ s t, PhaseInv s ∧ step s = .next t ∧ s.phase = .run ∧ t.phase = .run) ∧
    (∃ s t, PhaseInv s ∧ step s = .next t ∧ s.phase = .run ∧ t.phase = .done) ∧
    (∃ s t, PhaseInv s ∧ step s = .next t ∧ s.phase = .done ∧ t.outbox ≠ s.outbox) ∧
    ∃ s t, PhaseInv s ∧ step s = .next t ∧ t.phase = .err := by
  refine ⟨⟨_, _, inv_run, rfl, rfl, rfl⟩, ⟨running 2 .nrzI (some .low) [true] 1 [.neg, .neg], _, ?_, rfl, rfl, rfl⟩,
    ⟨_, _, inv_done, rfl, rfl, by decide⟩,
    { block 2 with inbox := [.request { cfg := 0x06#5, bits := [] }] }, _, ?_, rfl, rfl⟩
  · simp only [PhaseInv, running]
    exact ⟨.nrzI, 2, rfl, rfl, rfl, by decide, rfl, rfl, rfl⟩
  · simp [PhaseInv, block, State.reset]

theorem test_meets_CursorMovesOnByOne : ∃ s t, PhaseInv s ∧ step s = .next t ∧ s.phase = .run ∧ t.phase = .run :=
  ⟨_, _, inv_run, rfl, rfl, rfl⟩

/-- An answered request and a refused one. -/
theorem test_meets_RequestsAreAnsweredByThePureFunction : Ready (bounded 2 2) 2 ∧
    pureAnswer (bounded 2 2).params (.nrzL false false [true, false]) = .ok (.ok [.pos, .pos, .neg, .neg]) ∧
    pureAnswer (bounded 2 2).params (.nrzL false false [true, false, true]) = .error .tooManyBits :=
  ⟨ready_bounded, rfl, rfl⟩

theorem test_meets_EveryAdmittedRequestHasExactlyOneResponse : Ready (bounded 2 0) 2 ∧
    (Instr.unsupported111 true true [true]).decoded = .unrecognised ∧
    (Instr.nrzI false true [true]).decoded = .scheme .nrzI none ∧ Scheme.nrzI.requiresPol = true ∧
    withinMaxBits (bounded 2 0).params (Instr.nrzI true true []).bits.length = true :=
  ⟨⟨rfl, rfl, rfl⟩, rfl, rfl, rfl, rfl⟩

/-- Two blocks with one SPB and other rates, one of them with what an earlier request left. -/
theorem test_meets_ResponsesDependOnTheRequestAlone :
    let s := block 2
    let u : State := { block 2 with
      outbox := [.ok [.pos]], level := some .high, wave := [.zero]
      params := { sampleRate := { num := 4, den := 1 }, bitDuration := { num := 1, den := 2 }, maxBits := none } }
    Ready s 2 ∧ Ready u 2 ∧ s.params.maxBits = u.params.maxBits ∧
      Answers s (.unsupported110 true true []) (.err .unsupportedSchemeError) :=
  ⟨⟨rfl, rfl, rfl⟩, ⟨rfl, rfl, rfl⟩, rfl, _, rfl,
    (run_succ (t := (block 2).answered (.err .unsupportedSchemeError)) rfl 1).trans (run_idle rfl rfl 1)⟩

/-- An error, then a request that is encoded. -/
theorem test_meets_ProgramsAreAnsweredInOrder :
    let requests : List Request := [{ cfg := 0x02#5, bits := [true] }, { cfg := 0x0A#5, bits := [true] }]
    let s : State := { block 2 with inbox := programEvents requests }
    PhaseInv s ∧ s.phase = .idle ∧ s.inbox = programEvents requests ∧
      pureAnswers s.params requests = .ok [.err .configError, .ok [.pos, .pos]] := by
  refine ⟨?_, rfl, rfl, rfl⟩
  simp [PhaseInv, block, State.reset]

/-- The last of the six names and a name that is none of them: both clauses of the CFG word. -/
theorem test_meets_NotationCfg : schemeNames[5]? = some "Differential-Manchester".toList ∧
    "Bipolar AMI".toList ∉ schemeNames ∧ NotationCfg "Bipolar AMI".toList (some .low) 0x0F#5 := by
  refine ⟨rfl, by decide, ?_, by decide, rfl, rfl⟩
  intro k hk
  exact absurd (List.mem_of_getElem? hk) (by decide)

theorem test_meets_TextExpandsMostSignificantBitFirst : (∀ c ∈ ['A', Char.ofNat 127], c.toNat ≤ 127) ∧
    ['A', Char.ofNat 127][1]? = some (Char.ofNat 127) ∧ 7 < 8 := ⟨by simp, rfl, by decide⟩

theorem test_meets_TheTextBoundaryRefusesOtherCharacters : (∀ c ∈ ['0', '1'], c = '0' ∨ c = '1') ∧
    (∀ c ∈ [Char.ofNat 0, Char.ofNat 127], c.toNat ≤ 127) ∧
    (∃ c ∈ ['1', 'x'], c ≠ '0' ∧ c ≠ '1') ∧ ∃ c ∈ [Char.ofNat 127, Char.ofNat 128], 127 < c.toNat :=
  ⟨by simp, by simp, ⟨'x', by simp, by decide, by decide⟩, Char.ofNat 128, by simp, by decide⟩

end Sys2Proof.Machine.Tests
end

section
/-! PROOFS. The values of polarities and of their samples (00_scope.md R14). -/

namespace Sys2Proof.Machine

@[simp] theorem polarityValue_negPolarity (p : Polarity) : polarityValue (negPolarity p) = -polarityValue p := by
  cases p <;> rfl

@[simp] theorem sampleValue_sampleOf (p : Polarity) : sampleValue (sampleOf p) = polarityValue p := by
  cases p <;> rfl

/-- Settles O3: the two values by definition, negation and the sample by the rule of each. -/
theorem polarityHasItsUnitValue : Obligations.PolarityHasItsUnitValue :=
  ⟨rfl, rfl, fun p => ⟨polarityValue_negPolarity p, sampleValue_sampleOf p⟩⟩

end Sys2Proof.Machine
end

section
/-! PROOFS. What a step can do to WAVE: one block per fold step, nothing at the finish, all of it in the response
(10_state.md R25). -/

namespace Sys2Proof.Machine

/-- A rule that needs a level emits, under `onLevel`, blocks of the length it emits from every level. -/
theorem onLevel_length {f : Polarity → Bit → Polarity × Waveform} {level level' : Option Polarity} {b : Bit}
    {blk : Waveform} {k : Nat} (hf : ∀ p, (f p b).2.length = k) (h : onLevel f level b = some (level', blk)) :
    blk.length = k := by
  cases level with
  | none => cases h
  | some p => cases h; exact hf p

/-- Every step rule emits one block of its scheme's length (40_dispatch.md R81). -/
theorem schemeStep_length {sch : Scheme} {spb : Nat} {level level' : Option Polarity} {b : Bit} {blk : Waveform}
    (h : schemeStep sch spb level b = some (level', blk)) : blk.length = blocklen sch spb := by
  cases sch with
  | nrzL => cases h; exact expand_length _ _
  | nrzI => exact onLevel_length (fun _ => expand_length _ _) h
  | bipolarAmi => exact onLevel_length (fun _ => by cases b <;> exact expand_length _ _) h
  | pseudoternary => exact onLevel_length (fun _ => by cases b <;> exact expand_length _ _) h
  | manchester => cases h; cases b <;> exact expandHalves_length _ _ _
  | differentialManchester => exact onLevel_length (fun _ => expandHalves_length _ _ _) h

/-- A step is a transition of the block, a reset or an arrival, on the state without the event it consumed. -/
theorem step_next_rest {s t : State} (h : step s = .next t) :
    ∃ rest, advance { s with inbox := rest } = .next t ∨ t = State.resetBlock { s with inbox := rest } ∨
      ∃ d bits, acceptRequest d bits { s with inbox := rest } = .next t := by
  obtain ⟨-, ha⟩ | ⟨rest, -, ha⟩ | ⟨rest, -, hr⟩ | ⟨r, rest, -, hq⟩ := step_next h
  · exact ⟨s.inbox, .inl ha⟩
  · exact ⟨rest, .inl ha⟩
  · exact ⟨rest, .inr (.inl hr)⟩
  · exact ⟨rest, .inr (.inr ⟨_, _, hq⟩)⟩

/-- In RUN a step emits the block of the next bit, finishes, or resets the block. -/
theorem step_next_of_run {s t : State} (h : step s = .next t) (hrun : s.phase = .run) :
    ∃ rest,
      (∃ b spb sch level blk, s.bits[s.cursor]? = some b ∧ samplesPerBit s.params = some spb ∧
        s.schemeR = some sch ∧ schemeStep sch spb s.level b = some (level, blk) ∧
        t = State.emitBlock { s with inbox := rest } level blk) ∨
      (s.bits.length ≤ s.cursor ∧ t = State.finish { s with inbox := rest }) ∨
      t = State.resetBlock { s with inbox := rest } := by
  obtain ⟨rest, ha | hr | ⟨d, bits, hq⟩⟩ := step_next_rest h
  · obtain ⟨hp, -⟩ | ⟨-, hemit⟩ | ⟨-, hfin⟩ | ⟨hp | hp, -⟩ := advance_next ha
    · cases hrun.symm.trans hp
    · exact ⟨rest, .inl hemit⟩
    · exact ⟨rest, .inr (.inl hfin)⟩
    · cases hrun.symm.trans hp
    · cases hrun.symm.trans hp
  · exact ⟨rest, .inr (.inr hr)⟩
  · cases hrun.symm.trans (acceptRequest_next hq).1

/-- In DONE and ERR a step delivers the response of RESULT and WAVE, or resets the block. -/
theorem step_next_of_done_or_err {s t : State} (h : step s = .next t) (hp : s.phase = .done ∨ s.phase = .err) :
    ∃ rest,
      (∃ r, s.result = some r ∧ t = State.answered { s with inbox := rest } (responseOf r s.wave)) ∨
      t = State.resetBlock { s with inbox := rest } := by
  have hidle : s.phase ≠ .idle := fun hi => by simp [hi] at hp
  have hrun : s.phase ≠ .run := fun hr => by simp [hr] at hp
  obtain ⟨rest, ha | hr | ⟨d, bits, hq⟩⟩ := step_next_rest h
  · obtain ⟨hi, -⟩ | ⟨hr, -⟩ | ⟨hr, -⟩ | ⟨-, hresp⟩ := advance_next ha
    · exact absurd hi hidle
    · exact absurd hr hrun
    · exact absurd hr hrun
    · exact ⟨rest, .inl hresp⟩
  · exact ⟨rest, .inr hr⟩
  · exact absurd (acceptRequest_next hq).1 hidle

/-- Only raising an error enters ERR. -/
theorem step_next_to_err {s t : State} (h : step s = .next t) (herr : t.phase = .err) :
    ∃ rest e, t = State.raiseError { s with inbox := rest } e := by
  obtain ⟨rest, ha | rfl | ⟨d, bits, hq⟩⟩ := step_next_rest h
  · obtain ⟨hidle, rfl⟩ | ⟨hrun, _, _, _, _, _, -, -, -, -, rfl⟩ | ⟨-, -, rfl⟩ | ⟨-, _, -, rfl⟩ := advance_next ha
    · cases hidle.symm.trans herr
    · cases hrun.symm.trans herr
    · simp at herr
    · simp at herr
  · simp at herr
  · obtain ⟨-, -, ⟨-, rfl⟩ | ⟨_, -, -, rfl⟩ | ⟨_, _, -, -, -, rfl⟩⟩ := acceptRequest_next hq
    · exact ⟨rest, _, rfl⟩
    · exact ⟨rest, _, rfl⟩
    · simp at herr

/-- In DONE the phase invariant fixes RESULT. -/
theorem PhaseInv.result_of_done {s : State} (h : PhaseInv s) (hdone : s.phase = .done) : s.result = some .ok := by
  simp only [PhaseInv, hdone] at h
  obtain ⟨_, _, -, -, -, -, -, -, hres⟩ := h
  exact hres

/-- A step that stays in RUN appends one block of the scheme's length. -/
theorem step_appends_block {s t : State} (h : step s = .next t) (hrun : s.phase = .run) (hrun' : t.phase = .run) :
    ∃ sch spb blk, s.schemeR = some sch ∧ samplesPerBit s.params = some spb ∧
      blk.length = blocklen sch spb ∧ t.wave = s.wave ++ blk := by
  obtain ⟨_, ⟨_, spb, sch, _, blk, -, hspb, hsch, hstep, rfl⟩ | ⟨-, rfl⟩ | rfl⟩ := step_next_of_run h hrun
  · exact ⟨sch, spb, blk, hsch, hspb, schemeStep_length hstep, rfl⟩
  · simp at hrun'
  · simp at hrun'

/-- The step from RUN to DONE leaves WAVE alone. -/
theorem step_finish_wave {s t : State} (h : step s = .next t) (hrun : s.phase = .run) (hdone : t.phase = .done) :
    t.wave = s.wave := by
  obtain ⟨_, ⟨_, _, _, _, _, -, -, -, -, rfl⟩ | ⟨-, rfl⟩ | rfl⟩ := step_next_of_run h hrun
  · simp [hrun] at hdone
  · rfl
  · simp at hdone

/-- A response from DONE carries the whole of WAVE. -/
theorem step_response_wave {s t : State} (hinv : PhaseInv s) (h : step s = .next t) (hdone : s.phase = .done)
    (hout : t.outbox ≠ s.outbox) : t.outbox = s.outbox ++ [.ok s.wave] := by
  obtain ⟨_, ⟨r, hr, rfl⟩ | rfl⟩ := step_next_of_done_or_err h (.inl hdone)
  · obtain rfl : ResultCode.ok = r := Option.some.inj ((hinv.result_of_done hdone).symm.trans hr)
    rfl
  · exact absurd rfl hout

/-- Settles O53: each clause by what a step from its phase, or into it, can do. -/
theorem waveOnlyGrowsByWholeBlocks : Obligations.WaveOnlyGrowsByWholeBlocks := by
  intro s t hinv h
  refine ⟨step_appends_block h, step_finish_wave h, step_response_wave hinv h, fun herr => ?_⟩
  obtain ⟨rest, e, rfl⟩ := step_next_to_err h herr
  rfl

end Sys2Proof.Machine
end

section
/-! PROOFS. What a step can give the host: nothing, or the whole response of a request that has ended (20_memory.md
R46). -/

namespace Sys2Proof.Machine

/-- A step delivers nothing, or from DONE or ERR the response of RESULT and WAVE. -/
theorem step_next_outbox {s t : State} (h : step s = .next t) :
    t.outbox = s.outbox ∨ ((s.phase = .done ∨ s.phase = .err) ∧
      ∃ r, s.result = some r ∧ t.outbox = s.outbox ++ [responseOf r s.wave]) := by
  obtain ⟨rest, ha | rfl | ⟨d, bits, hq⟩⟩ := step_next_rest h
  · obtain ⟨-, rfl⟩ | ⟨-, _, _, _, _, _, -, -, -, -, rfl⟩ | ⟨-, -, rfl⟩ | ⟨hp, r, hr, rfl⟩ := advance_next ha
    · exact .inl rfl
    · exact .inl rfl
    · exact .inl rfl
    · exact .inr ⟨hp, r, hr, rfl⟩
  · exact .inl rfl
  · obtain ⟨-, -, ⟨-, rfl⟩ | ⟨_, -, -, rfl⟩ | ⟨_, _, -, -, -, rfl⟩⟩ := acceptRequest_next hq
    · exact .inl rfl
    · exact .inl rfl
    · exact .inl rfl

/-- In ERR the phase invariant makes RESULT an error. -/
theorem PhaseInv.result_of_err {s : State} (h : PhaseInv s) (herr : s.phase = .err) :
    ∃ e, s.result = some (.err e) := by
  simp only [PhaseInv, herr] at h
  obtain ⟨-, -, -, -, -, hres⟩ := h
  exact hres

/-- In DONE the two invariants speak of the same scheme and SPB, and CURSOR stands at n: WAVE has the length of all
the blocks and is the fold of all the bits. -/
theorem PhaseInv.wave_complete_of_done {s : State} (h : PhaseInv s) (hfold : FoldInv s) (hdone : s.phase = .done) :
    ∃ sch spb level₀, s.schemeR = some sch ∧ samplesPerBit s.params = some spb ∧
      s.wave.length = s.bits.length * blocklen sch spb ∧
      encodeFold sch spb level₀ s.bits = some (s.level, s.wave) := by
  simp only [PhaseInv, hdone] at h
  obtain ⟨sch, spb, hsch, hspb, -, hcursor, -, hlen, -⟩ := h
  obtain ⟨sch', spb', level₀, hsch', hspb', -, hwave⟩ := hfold (.inr hdone)
  obtain rfl : sch = sch' := Option.some.inj (hsch.symm.trans hsch')
  obtain rfl : spb = spb' := Option.some.inj (hspb.symm.trans hspb')
  rw [hcursor] at hlen
  rw [hcursor, List.take_length] at hwave
  exact ⟨sch, spb, level₀, hsch, hspb, hlen, hwave⟩

/-- Settles O52: what is delivered is the response of RESULT and WAVE, and the phase fixes both: in DONE, OK with the
complete waveform; in ERR, an error. -/
theorem theHostNeverReceivesAPrefix : Obligations.TheHostNeverReceivesAPrefix := by
  intro s t hinv hfold h
  obtain hout | ⟨hdone | herr, r, hr, hout⟩ := step_next_outbox h
  · exact .inl hout
  · obtain rfl : ResultCode.ok = r := Option.some.inj ((hinv.result_of_done hdone).symm.trans hr)
    exact .inr (.inr ⟨hdone, hout, hinv.wave_complete_of_done hfold hdone⟩)
  · obtain ⟨e, he⟩ := hinv.result_of_err herr
    obtain rfl : ResultCode.err e = r := Option.some.inj (he.symm.trans hr)
    exact .inr (.inl ⟨herr, e, he, hout⟩)

end Sys2Proof.Machine
end

section
/-! PROOFS. What one step of the fold does when the host only waits: the next bit's block (40_dispatch.md R74). -/

namespace Sys2Proof.Machine

/-- With no event from the host, a step is the block's own transition. -/
theorem step_of_quiet {s : State} (hquiet : s.inbox = []) : step s = advance s := by
  simp only [step, hquiet]

/-- In RUN with a bit left, the block takes that bit. -/
theorem advance_of_run {s : State} {b : Bit} (hrun : s.phase = .run) (hbit : s.bits[s.cursor]? = some b) :
    advance s = s.foldStep b := by
  simp only [advance, hrun, hbit]

/-- In RUN with a bit left and a quiet host, a step makes the writes of R74 with what the scheme's rule gives for that
bit. -/
theorem step_emits_block {s : State} {b : Bit} {spb : Nat} {sch : Scheme} {level : Option Polarity} {blk : Waveform}
    (hquiet : s.inbox = []) (hrun : s.phase = .run) (hsch : s.schemeR = some sch)
    (hspb : samplesPerBit s.params = some spb) (hbit : s.bits[s.cursor]? = some b)
    (hrule : schemeStep sch spb s.level b = some (level, blk)) : step s = .next (s.emitBlock level blk) :=
  calc step s = advance s := step_of_quiet hquiet
    _ = s.foldStep b := advance_of_run hrun hbit
    _ = .next (s.emitBlock level blk) := foldStep_eq hspb hsch hrule

section
variable (spb : Nat) (level : Option Polarity) (p : Polarity) (b : Bit)

@[simp] theorem schemeStep_nrzL : schemeStep .nrzL spb level b = some (stepNrzL spb level b) := rfl

@[simp] theorem schemeStep_manchester : schemeStep .manchester spb level b = some (stepManchester spb level b) := rfl

@[simp] theorem schemeStep_nrzI :
    schemeStep .nrzI spb (some p) b = some (some (stepNrzI spb p b).1, (stepNrzI spb p b).2) :=
  onLevel_some (stepNrzI spb) p b

@[simp] theorem schemeStep_bipolarAmi :
    schemeStep .bipolarAmi spb (some p) b = some (some (stepAmi spb p b).1, (stepAmi spb p b).2) :=
  onLevel_some (stepAmi spb) p b

@[simp] theorem schemeStep_pseudoternary :
    schemeStep .pseudoternary spb (some p) b =
      some (some (stepPseudoternary spb p b).1, (stepPseudoternary spb p b).2) :=
  onLevel_some (stepPseudoternary spb) p b

@[simp] theorem schemeStep_differentialManchester :
    schemeStep .differentialManchester spb (some p) b =
      some (some (stepDifferentialManchester spb p b).1, (stepDifferentialManchester spb p b).2) :=
  onLevel_some (stepDifferentialManchester spb) p b

end

/-- Settles O21: the writes are those of `emitBlock`, and the table is the equation of each scheme's rule. -/
theorem oneStepConsumesOneBit : Obligations.OneStepConsumesOneBit := by
  refine ⟨?writes, ?stateless, ?stateful⟩
  case writes =>
    intro s spb sch b level blk hquiet hrun hsch hspb hbit hrule
    exact step_emits_block hquiet hrun hsch hspb hbit hrule
  case stateless =>
    intro spb level b
    exact ⟨schemeStep_nrzL spb level b, schemeStep_manchester spb level b⟩
  case stateful =>
    intro spb p b
    exact ⟨schemeStep_nrzI spb p b, schemeStep_bipolarAmi spb p b, schemeStep_pseudoternary spb p b,
      schemeStep_differentialManchester spb p b⟩

end Sys2Proof.Machine
end

section
/-! PROOFS. The steps of NRZ-L and NRZ-I (41_nrz.md R91, R96): the level and the block each rule gives for the next
bit, and the writes they make. -/

namespace Sys2Proof.Machine

/-- Where the scheme's rule gives LEVEL back as it was, a step writes WAVE and CURSOR alone. -/
theorem step_emits_block_keeping_level {s : State} {b : Bit} {spb : Nat} {sch : Scheme} {blk : Waveform}
    (hquiet : s.inbox = []) (hrun : s.phase = .run) (hsch : s.schemeR = some sch)
    (hspb : samplesPerBit s.params = some spb) (hbit : s.bits[s.cursor]? = some b)
    (hrule : schemeStep sch spb s.level b = some (s.level, blk)) :
    step s = .next { s with wave := s.wave ++ blk, cursor := s.cursor + 1 } :=
  step_emits_block hquiet hrun hsch hspb hbit hrule

/-- NRZ-L reads the bit alone, and gives LEVEL back. -/
theorem schemeStep_nrzL_holds_bit (spb : Nat) (level : Option Polarity) (b : Bit) :
    schemeStep .nrzL spb level b = some (level, List.replicate spb (if b then Sample.pos else Sample.neg)) :=
  schemeStep_nrzL spb level b

/-- On a 1 bit the block of NRZ-I is at the level that the inversion gives. -/
theorem schemeStep_nrzI_one (spb : Nat) (p : Polarity) :
    schemeStep .nrzI spb (some p) true =
      some (some (negPolarity p), List.replicate spb (sampleOf (negPolarity p))) :=
  schemeStep_nrzI spb p true

/-- On a 0 bit the block of NRZ-I is at the level that was there. -/
theorem schemeStep_nrzI_zero (spb : Nat) (p : Polarity) :
    schemeStep .nrzI spb (some p) false = some (some p, List.replicate spb (sampleOf p)) :=
  schemeStep_nrzI spb p false

/-- Settles O22: the rule of NRZ-L keeps LEVEL, so WAVE and CURSOR are all that the step writes. -/
theorem nrzLStepHoldsTheLevelOfTheBit : Obligations.NrzLStepHoldsTheLevelOfTheBit := by
  intro s spb b hquiet hrun hsch hspb hbit
  exact step_emits_block_keeping_level hquiet hrun hsch hspb hbit (schemeStep_nrzL_holds_bit spb s.level b)

/-- Settles O23: on a 1 bit the rule of NRZ-I gives LEVEL its opposite and a block at that level; on a 0 bit it keeps
LEVEL. -/
theorem nrzIStepInvertsOnOneBeforeEmitting : Obligations.NrzIStepInvertsOnOneBeforeEmitting := by
  intro s spb p hquiet hrun hsch hlevel hspb
  refine ⟨fun hone => ?one, fun hzero => ?zero⟩
  case one =>
    have hrule := schemeStep_nrzI_one spb p
    rw [← hlevel] at hrule
    exact step_emits_block hquiet hrun hsch hspb hone hrule
  case zero =>
    have hrule := schemeStep_nrzI_zero spb p
    rw [← hlevel] at hrule
    exact step_emits_block_keeping_level hquiet hrun hsch hspb hzero hrule

end Sys2Proof.Machine
end

section
/-! PROOFS. The step of Bipolar AMI (42_ami_family.md R111): LEVEL is `last_nonzero`, which a mark inverts and a space
leaves, and the writes the step makes on each bit. -/

namespace Sys2Proof.Machine

/-- On a mark the block of AMI is at the opposite of the last nonzero polarity, which it becomes. -/
theorem schemeStep_bipolarAmi_mark (spb : Nat) (p : Polarity) :
    schemeStep .bipolarAmi spb (some p) true =
      some (some (negPolarity p), List.replicate spb (sampleOf (negPolarity p))) :=
  schemeStep_bipolarAmi spb p true

/-- On a space the block of AMI is all zeros, and the last nonzero polarity stays. -/
theorem schemeStep_bipolarAmi_space (spb : Nat) (p : Polarity) :
    schemeStep .bipolarAmi spb (some p) false = some (some p, List.replicate spb Sample.zero) :=
  schemeStep_bipolarAmi spb p false

/-- Settles O24: the rule of AMI inverts LEVEL on a mark and emits what it inverted to; on a space it keeps LEVEL, so
WAVE and CURSOR are all that the step writes. -/
theorem amiStepAlternatesOnMarks : Obligations.AmiStepAlternatesOnMarks := by
  intro s spb p hquiet hrun hsch hlevel hspb
  refine ⟨fun hmark => ?mark, fun hspace => ?space⟩
  case mark =>
    exact step_emits_block hquiet hrun hsch hspb hmark (hlevel ▸ schemeStep_bipolarAmi_mark spb p)
  case space =>
    exact step_emits_block_keeping_level hquiet hrun hsch hspb hspace
      (hlevel ▸ schemeStep_bipolarAmi_space spb p)

end Sys2Proof.Machine
end

section
/-! PROOFS. The instance parameters are constants of the block: neither its own transitions, nor an arrival, nor a reset
writes one (70_reset_and_hazards.md R171, 10_state.md R29). -/

namespace Sys2Proof.Machine

/-- The block's own transition writes no instance parameter, whatever the phase (10_state.md R29). -/
theorem advance_next_params {s t : State} (h : advance s = .next t) : t.params = s.params := by
  obtain ⟨-, rfl⟩ | ⟨-, _, _, _, level, blk, -, -, -, -, rfl⟩ | ⟨-, -, rfl⟩ | ⟨-, r, -, rfl⟩ := advance_next h
  · rfl
  · exact s.emitBlock_params level blk
  · exact s.finish_params
  · exact s.answered_params (responseOf r s.wave)

/-- An arrival writes no instance parameter, whether it raises an error or starts a run (10_state.md R29). -/
theorem acceptRequest_next_params {d : Decoded} {bits : List Bit} {s t : State}
    (h : acceptRequest d bits s = .next t) : t.params = s.params := by
  obtain ⟨-, -, ⟨-, rfl⟩ | ⟨_, -, -, rfl⟩ | ⟨sch, pol, -, -, -, rfl⟩⟩ := acceptRequest_next h
  · exact s.raiseError_params .unsupportedSchemeError
  · exact s.raiseError_params .configError
  · exact s.startRun_params sch (seed sch pol) bits

/-- Settles O51: a step is a transition of the block, a reset or an arrival, after an event is taken from the inbox,
and none of them writes a parameter. -/
theorem instanceParametersAreNeverWritten : Obligations.InstanceParametersAreNeverWritten := by
  intro s t h
  obtain ⟨rest, ha | rfl | ⟨d, bits, hq⟩⟩ := step_next_rest h
  · exact advance_next_params (s := { s with inbox := rest }) ha
  · exact State.resetBlock_params { s with inbox := rest }
  · exact acceptRequest_next_params (s := { s with inbox := rest }) hq

end Sys2Proof.Machine
end

section
/-! PROOFS. Every step keeps what PHASE says about the other elements (10_state.md R20, R24 to R27): one lemma per
operation, then the block's transition, the arrival and the step. -/

namespace Sys2Proof.Machine

theorem phaseInv_resetBlock (s : State) : PhaseInv s.resetBlock := ⟨rfl, rfl, rfl, rfl, rfl, rfl⟩

theorem phaseInv_answered (s : State) (r : Response) : PhaseInv (s.answered r) := ⟨rfl, rfl, rfl, rfl, rfl, rfl⟩

/-- The block of one more bit keeps CURSOR within n and WAVE at CURSOR blocks. -/
theorem PhaseInv.emitBlock {s : State} {b : Bit} {spb : Nat} {sch : Scheme} {level : Option Polarity} {blk : Waveform}
    (h : PhaseInv s) (hrun : s.phase = .run) (hbit : s.bits[s.cursor]? = some b)
    (hspb : samplesPerBit s.params = some spb) (hsch : s.schemeR = some sch)
    (hrule : schemeStep sch spb s.level b = some (level, blk)) : PhaseInv (s.emitBlock level blk) := by
  simp only [PhaseInv, hrun] at h
  obtain ⟨sch', spb', hsch', hspb', hlevel, -, hmax, hwave, hres⟩ := h
  obtain rfl : sch = sch' := Option.some.inj (hsch.symm.trans hsch')
  obtain rfl : spb = spb' := Option.some.inj (hspb.symm.trans hspb')
  obtain ⟨hlt, -⟩ := List.getElem?_eq_some_iff.mp hbit
  have hwave' : (s.wave ++ blk).length = (s.cursor + 1) * blocklen sch spb := by
    rw [List.length_append, hwave, schemeStep_length hrule, Nat.succ_mul]
  simp only [PhaseInv, State.emitBlock_phase, hrun]
  exact ⟨sch, spb, hsch, hspb, (schemeStep_level hrule).trans hlevel, hlt, hmax, hwave', hres⟩

/-- The finish comes with CURSOR at n, since RUN keeps it within n. -/
theorem PhaseInv.finish {s : State} (h : PhaseInv s) (hrun : s.phase = .run) (hend : s.bits.length ≤ s.cursor) :
    PhaseInv s.finish := by
  simp only [PhaseInv, hrun] at h
  obtain ⟨sch, spb, hsch, hspb, hlevel, hle, hmax, hwave, -⟩ := h
  exact ⟨sch, spb, hsch, hspb, hlevel, Nat.le_antisymm hle hend, hmax, hwave, rfl⟩

/-- An error leaves the elements that IDLE held at none. -/
theorem PhaseInv.raiseError {s : State} (h : PhaseInv s) (hidle : s.phase = .idle) (e : ErrorKind) :
    PhaseInv (s.raiseError e) := by
  simp only [PhaseInv, hidle] at h
  obtain ⟨hsch, hlevel, hbits, hcursor, -, -⟩ := h
  exact ⟨hsch, hlevel, hbits, hcursor, rfl, e, rfl⟩

/-- LEVEL is seeded exactly for a stateful scheme, when the polarity it needs was given. -/
theorem seed_isSome {sch : Scheme} {pol : Option Polarity} (h : sch.requiresPol = true → pol.isSome = true) :
    (seed sch pol).isSome = sch.requiresPol := by
  cases hr : sch.requiresPol with
  | true => simp [seed, hr, h hr]
  | false => simp [seed, hr]

/-- An accepted request starts with no bit consumed. -/
theorem PhaseInv.startRun {s : State} {spb : Nat} {sch : Scheme} {pol : Option Polarity} {bits : List Bit}
    (h : PhaseInv s) (hidle : s.phase = .idle) (hspb : samplesPerBit s.params = some spb)
    (hpol : sch.requiresPol = true → pol.isSome = true) (hmax : withinMaxBits s.params bits.length = true) :
    PhaseInv (s.startRun sch (seed sch pol) bits) := by
  simp only [PhaseInv, hidle] at h
  obtain ⟨-, -, -, -, -, hres⟩ := h
  have hwave : ([] : Waveform).length = 0 * blocklen sch spb := by rw [List.length_nil, Nat.zero_mul]
  exact ⟨sch, spb, rfl, hspb, seed_isSome hpol, Nat.zero_le _, hmax, hwave, hres⟩

theorem PhaseInv.advance_next {s t : State} (h : PhaseInv s) (ha : advance s = .next t) : PhaseInv t := by
  obtain ⟨-, rfl⟩ | ⟨hrun, b, spb, sch, level, blk, hbit, hspb, hsch, hrule, rfl⟩ | ⟨hrun, hend, rfl⟩ |
    ⟨-, r, -, rfl⟩ := Machine.advance_next ha
  · exact h
  · exact h.emitBlock hrun hbit hspb hsch hrule
  · exact h.finish hrun hend
  · exact phaseInv_answered s _

theorem PhaseInv.acceptRequest_next {d : Decoded} {bits : List Bit} {s t : State} (h : PhaseInv s)
    (hq : acceptRequest d bits s = .next t) : PhaseInv t := by
  obtain ⟨hidle, ⟨spb, hspb⟩, ⟨-, rfl⟩ | ⟨_, -, -, rfl⟩ | ⟨sch, pol, -, hpol, hmax, rfl⟩⟩ :=
    Machine.acceptRequest_next hq
  · exact h.raiseError hidle _
  · exact h.raiseError hidle _
  · exact h.startRun hidle hspb hpol hmax

/-- Settles O48: a step is a transition of the block, a reset or an arrival, and the invariant does not speak of the
inbox that the event leaves. -/
theorem everyStepKeepsThePhaseInvariant : Obligations.EveryStepKeepsThePhaseInvariant := by
  intro s t hinv h
  obtain ⟨rest, ha | rfl | ⟨d, bits, hq⟩⟩ := step_next_rest h
  · exact PhaseInv.advance_next (s := { s with inbox := rest }) hinv ha
  · exact phaseInv_resetBlock _
  · exact PhaseInv.acceptRequest_next (s := { s with inbox := rest }) hinv hq

end Sys2Proof.Machine
end

section
/-! PROOFS. Every step keeps that LEVEL and WAVE are the fold of the consumed bits (40_dispatch.md R73, 10_state.md
R22). -/

namespace Sys2Proof.Machine

/-- Outside RUN and DONE the fold invariant asks nothing. -/
theorem foldInv_of_idle_or_err {s : State} (h : s.phase = .idle ∨ s.phase = .err) : FoldInv s := by
  intro hbusy
  obtain hp | hp := h <;> simp [hp] at hbusy

/-- The bit at CURSOR is the one that CURSOR + 1 adds to the consumed bits. -/
theorem take_succ_of_getElem? {bits : List Bit} {k : Nat} {b : Bit} (h : bits[k]? = some b) :
    bits.take (k + 1) = bits.take k ++ [b] := by
  rw [List.take_add_one, h, Option.toList_some]

/-- One more step of the scheme is the fold over one more bit. -/
theorem FoldInv.emitBlock {s : State} {b : Bit} {spb : Nat} {sch : Scheme} {level : Option Polarity} {blk : Waveform}
    (h : FoldInv s) (hrun : s.phase = .run) (hbit : s.bits[s.cursor]? = some b)
    (hspb : samplesPerBit s.params = some spb) (hsch : s.schemeR = some sch)
    (hrule : schemeStep sch spb s.level b = some (level, blk)) : FoldInv (s.emitBlock level blk) := by
  obtain ⟨sch', spb', level₀, hsch', hspb', hlevel₀, hfold⟩ := h (.inl hrun)
  obtain rfl : sch = sch' := Option.some.inj (hsch.symm.trans hsch')
  obtain rfl : spb = spb' := Option.some.inj (hspb.symm.trans hspb')
  have hfold' := encodeFold_concat hfold hrule
  rw [← take_succ_of_getElem? hbit] at hfold'
  exact fun _ => ⟨sch, spb, level₀, hsch, hspb, hlevel₀, hfold'⟩

theorem FoldInv.finish {s : State} (h : FoldInv s) (hrun : s.phase = .run) : FoldInv s.finish :=
  fun _ => h (.inl hrun)

/-- With no bit consumed, the fold is the seed and no sample. -/
theorem foldInv_startRun {s : State} {spb : Nat} {sch : Scheme} {pol : Option Polarity} (bits : List Bit)
    (hspb : samplesPerBit s.params = some spb) (hpol : sch.requiresPol = true → pol.isSome = true) :
    FoldInv (s.startRun sch (seed sch pol) bits) :=
  fun _ => ⟨sch, spb, seed sch pol, rfl, hspb, seed_isSome hpol, rfl⟩

theorem FoldInv.advance_next {s t : State} (h : FoldInv s) (ha : advance s = .next t) : FoldInv t := by
  obtain ⟨-, rfl⟩ | ⟨hrun, b, spb, sch, level, blk, hbit, hspb, hsch, hrule, rfl⟩ | ⟨hrun, -, rfl⟩ |
    ⟨-, r, -, rfl⟩ := Machine.advance_next ha
  · exact h
  · exact h.emitBlock hrun hbit hspb hsch hrule
  · exact h.finish hrun
  · exact foldInv_of_idle_or_err (.inl rfl)

/-- An arrival meets the fold invariant whatever stood before it: it raises an error or starts a fold. -/
theorem foldInv_of_acceptRequest_next {d : Decoded} {bits : List Bit} {s t : State}
    (hq : acceptRequest d bits s = .next t) : FoldInv t := by
  obtain ⟨-, ⟨spb, hspb⟩, ⟨-, rfl⟩ | ⟨_, -, -, rfl⟩ | ⟨sch, pol, -, hpol, -, rfl⟩⟩ := acceptRequest_next hq
  · exact foldInv_of_idle_or_err (.inr rfl)
  · exact foldInv_of_idle_or_err (.inr rfl)
  · exact foldInv_startRun bits hspb hpol

/-- Settles O49: a fold step adds one bit to the fold, the finish adds none, and every other step leaves RUN and DONE or
starts a fold anew. -/
theorem everyStepKeepsTheFoldInvariant : Obligations.EveryStepKeepsTheFoldInvariant := by
  intro s t hinv h
  obtain ⟨rest, ha | rfl | ⟨d, bits, hq⟩⟩ := step_next_rest h
  · exact FoldInv.advance_next (s := { s with inbox := rest }) hinv ha
  · exact foldInv_of_idle_or_err (.inl rfl)
  · exact foldInv_of_acceptRequest_next hq

end Sys2Proof.Machine
end

section
/-! PROOFS. The words: configuration words, codes of samples and results (30_encoding.md §1 to §3), and SPB
(00_scope.md R8). -/

namespace Sys2Proof.Machine

/-- The instruction of a word keeps its three fields, whichever of the eight codes SCHEME holds. -/
theorem encodeCfg_decodeCfg_fields (w : CfgWord) (bits : List Bit) :
    encodeCfg (decodeCfg w bits) = cfgWord (cfgPol w) (cfgPv w) (cfgScheme w) := by
  unfold decodeCfg
  generalize cfgScheme w = code
  obtain ⟨⟨k, hk⟩⟩ := code
  interval_cases k <;> rfl

theorem encodeCfg_decodeCfg (w : CfgWord) (bits : List Bit) : encodeCfg (decodeCfg w bits) = w :=
  (encodeCfg_decodeCfg_fields w bits).trans (cfgWord_fields w)

theorem bits_decodeCfg (w : CfgWord) (bits : List Bit) : (decodeCfg w bits).bits = bits := by
  unfold decodeCfg
  split <;> rfl

theorem decodeRequest_encode (i : Instr) : decodeRequest (encode i) = i := by
  cases i <;> simp [decodeRequest, encode, decodeCfg, encodeCfg, Instr.bits]

theorem encode_decodeRequest (r : Request) : encode (decodeRequest r) = r := by
  simp only [encode, decodeRequest, encodeCfg_decodeCfg, bits_decodeCfg]

/-- Settles O1: an instruction is read back from its fields, and a word is its three fields. -/
theorem decodeAndEncodeAreInverse : Obligations.DecodeAndEncodeAreInverse :=
  ⟨decodeRequest_encode, encode_decodeRequest⟩

/-- Settles O2: each word of the table is closed, so its row computes; the bits play no part. -/
theorem configurationWordsDecodeAsListed : Obligations.ConfigurationWordsDecodeAsListed := by
  intro bits
  exact ⟨rfl, rfl, rfl, rfl, rfl, rfl, rfl, rfl, rfl, rfl, rfl, rfl, rfl, rfl, rfl, rfl, rfl, rfl, rfl, rfl⟩

theorem sext2_code (v : Sample) : sext2 v.code = sampleValue v := by cases v <;> rfl

theorem waveformOfCodes_sampleCodes (w : Waveform) : waveformOfCodes (sampleCodes w) = some w := by
  induction w with
  | nil => rfl
  | cons v w ih =>
    have htail : waveformOfCodes (w.map Sample.code) = some w := ih
    simp [sampleCodes, waveformOfCodes, htail]

/-- No produced code is `10` (30_encoding.md R59). -/
theorem ne_two_of_mem_sampleCodes {w : Waveform} {c : SampleCode} (h : c ∈ sampleCodes w) : c ≠ 0b10#2 := by
  obtain ⟨v, -, rfl⟩ := List.mem_map.mp h
  exact of_decide_eq_true (Sample.code_wf v)

/-- Settles O4: the code of each sample by its value, the stream by induction on the waveform. -/
theorem sampleStreamKeepsTheWaveform : Obligations.SampleStreamKeepsTheWaveform :=
  ⟨sext2_code, fun w => ⟨waveformOfCodes_sampleCodes w, fun _ => ne_two_of_mem_sampleCodes⟩⟩

theorem resultOfWord_resultWord (r : ResultCode) : resultOfWord (resultWord r) = some r := by
  cases r with
  | ok => rfl
  | err e => cases e <;> rfl

/-- Settles O5: the three codes and the wire form by definition, and each code read back. -/
theorem resultCodesAreAsTabled : Obligations.ResultCodesAreAsTabled :=
  ⟨rfl, rfl, rfl, resultOfWord_resultWord, fun _ => rfl, fun _ => rfl⟩

/-- Where SPB has a value, no denominator is zero, and the product is SPB times the common denominator. -/
theorem samplesPerBit_product {p : Params} {spb : Nat} (h : samplesPerBit p = some spb) :
    0 < p.bitDuration.den * p.sampleRate.den ∧
      p.bitDuration.num * p.sampleRate.num = spb * (p.bitDuration.den * p.sampleRate.den) := by
  simp only [samplesPerBit] at h
  split at h
  · cases h
  · rename_i hden
    split at h
    · rename_i hdiv
      cases h
      exact ⟨Nat.pos_of_ne_zero hden, (Nat.div_mul_cancel (Nat.dvd_of_mod_eq_zero hdiv.1)).symm⟩
    · cases h

theorem samplesPerBit_of_product {p : Params} {spb : Nat} (hspb : 0 < spb)
    (hden : 0 < p.bitDuration.den * p.sampleRate.den)
    (hprod : p.bitDuration.num * p.sampleRate.num = spb * (p.bitDuration.den * p.sampleRate.den)) :
    samplesPerBit p = some spb := by
  simp only [samplesPerBit, hprod, Nat.mul_mod_left, Nat.mul_div_left spb hden, hden.ne', if_false, hspb,
    and_self, if_true]

/-- Settles O6: the quotient is SPB exactly when the product is SPB times the common denominator. -/
theorem samplesPerBitIsThePositiveIntegralProduct : Obligations.SamplesPerBitIsThePositiveIntegralProduct := by
  intro p spb
  constructor
  · intro h
    obtain ⟨hden, hprod⟩ := samplesPerBit_product h
    exact ⟨samplesPerBit_pos h, Nat.pos_of_mul_pos_right hden, Nat.pos_of_mul_pos_left hden, hprod⟩
  · rintro ⟨hspb, hbit, hrate, hprod⟩
    exact samplesPerBit_of_product hspb (Nat.mul_pos hbit hrate) hprod

end Sys2Proof.Machine
end

section
/-! PROOFS. What each event of the host makes of a step (log 2; 70_reset_and_hazards.md R170 to R172). -/

namespace Sys2Proof.Machine

theorem step_of_tick {s : State} {rest : List HostEvent} (h : s.inbox = .tick :: rest) :
    step s = advance { s with inbox := rest } := by
  simp only [step, h]

theorem step_of_reset {s : State} {rest : List HostEvent} (h : s.inbox = .reset :: rest) :
    step s = .next (State.resetBlock { s with inbox := rest }) := by
  simp only [step, h]

theorem step_of_request {s : State} {r : Request} {rest : List HostEvent} (h : s.inbox = .request r :: rest) :
    step s = exec (decodeRequest r) { s with inbox := rest } := by
  simp only [step, h]

theorem advance_of_idle {s : State} (hidle : s.phase = .idle) : advance s = .next s := by
  simp only [advance, hidle]

/-- Settles O7: one equation of `step` per event. -/
theorem stepRunsTheDecodedRequest : Obligations.StepRunsTheDecodedRequest :=
  ⟨fun _ _ _ => step_of_request, fun _ _ => step_of_tick, fun _ => step_of_quiet⟩

/-- Settles O8: the step is the block's own transition, which waits in IDLE. -/
theorem idleBlockWaits : Obligations.IdleBlockWaits := by
  intro s hidle
  refine ⟨fun hquiet => ?_, fun rest htick => ?_⟩
  · exact (step_of_quiet hquiet).trans (advance_of_idle hidle)
  · exact (step_of_tick htick).trans (advance_of_idle (s := { s with inbox := rest }) hidle)

/-- Settles O9: the reset state is closed, so each element is read off; SPB by its product. -/
theorem stateAfterReset : Obligations.StateAfterReset :=
  ⟨rfl, rfl, rfl, rfl, rfl, rfl, rfl, samplesPerBit_of_product (by decide) (by decide) rfl, rfl⟩

/-- Settles O10: the writes are those of `resetBlock`. -/
theorem resetAbandonsTheRequest : Obligations.ResetAbandonsTheRequest :=
  fun _ _ hreset => step_of_reset hreset

end Sys2Proof.Machine
end

section
/-! PROOFS. The end of a request: the finish and the response (40_dispatch.md R75, R77). -/

namespace Sys2Proof.Machine

/-- In RUN with no bit left, the block finishes. -/
theorem advance_of_run_end {s : State} (hrun : s.phase = .run) (hend : s.bits.length ≤ s.cursor) :
    advance s = .next s.finish := by
  simp only [advance, hrun, List.getElem?_eq_none hend]

/-- In DONE and ERR, the block delivers the response of RESULT and WAVE. -/
theorem advance_of_done_or_err {s : State} {r : ResultCode} (hp : s.phase = .done ∨ s.phase = .err)
    (hres : s.result = some r) : advance s = .next (s.answered (responseOf r s.wave)) := by
  obtain hp | hp := hp <;> simp only [advance, hp, State.respond, hres]

theorem step_finishes {s : State} (hquiet : s.inbox = []) (hrun : s.phase = .run)
    (hend : s.bits.length ≤ s.cursor) : step s = .next s.finish :=
  (step_of_quiet hquiet).trans (advance_of_run_end hrun hend)

theorem step_responds {s : State} {r : ResultCode} (hquiet : s.inbox = [])
    (hp : s.phase = .done ∨ s.phase = .err) (hres : s.result = some r) :
    step s = .next (s.answered (responseOf r s.wave)) :=
  (step_of_quiet hquiet).trans (advance_of_done_or_err hp hres)

/-- Settles O29: the writes are those of `finish`. -/
theorem theLastBitIsFollowedByTheFinish : Obligations.TheLastBitIsFollowedByTheFinish :=
  fun _ hquiet hrun hcursor => step_finishes hquiet hrun hcursor.ge

/-- Settles O30: the writes are those of `answered`, with the response that RESULT selects. -/
theorem theResponseEndsTheRequest : Obligations.TheResponseEndsTheRequest := by
  intro s hquiet
  refine ⟨fun hdone hres => ?done, fun e herr hres => ?err⟩
  case done => exact step_responds hquiet (.inl hdone) hres
  case err => exact step_responds hquiet (.inr herr) hres

end Sys2Proof.Machine
end

section
/-! PROOFS. The arrival of a request: what acceptance answers in each case, in the order of its checks
(40_dispatch.md R71; 60_exceptions.md R155, R158). -/

namespace Sys2Proof.Machine

theorem acceptRequest_badSpb {s : State} (hspb : samplesPerBit s.params = none) (d : Decoded) (bits : List Bit) :
    acceptRequest d bits s = .refused .badSpb := by
  simp only [acceptRequest, hspb]

theorem acceptRequest_busy {s : State} {spb : Nat} (hspb : samplesPerBit s.params = some spb)
    (hbusy : s.phase ≠ .idle) (d : Decoded) (bits : List Bit) : acceptRequest d bits s = .refused .busy := by
  simp only [acceptRequest, hspb, hbusy, if_false]

/-- The check of the polarity passes when a scheme that needs one was given one. -/
theorem no_missing_polarity {sch : Scheme} {pol : Option Polarity}
    (hpol : sch.requiresPol = true → pol.isSome = true) : (sch.requiresPol && pol.isNone) = false := by
  cases hreq : sch.requiresPol with
  | false => rfl
  | true => simp [hpol hreq]

section
variable {s : State} {spb : Nat} (hidle : s.phase = .idle) (hspb : samplesPerBit s.params = some spb)
include hidle hspb

theorem acceptRequest_unrecognised (bits : List Bit) :
    acceptRequest .unrecognised bits s = .next (s.raiseError .unsupportedSchemeError) := by
  simp only [acceptRequest, hspb, hidle, if_true]

theorem acceptRequest_missing_polarity {sch : Scheme} (hreq : sch.requiresPol = true) (bits : List Bit) :
    acceptRequest (.scheme sch none) bits s = .next (s.raiseError .configError) := by
  simp [acceptRequest, hspb, hidle, hreq]

theorem acceptRequest_accepts {sch : Scheme} {pol : Option Polarity} {bits : List Bit}
    (hpol : sch.requiresPol = true → pol.isSome = true) (hmax : withinMaxBits s.params bits.length = true) :
    acceptRequest (.scheme sch pol) bits s = .next (s.startRun sch (seed sch pol) bits) := by
  simp only [acceptRequest, hspb, hidle, no_missing_polarity hpol, hmax, if_true, if_false, Bool.false_eq_true]

theorem acceptRequest_too_long {sch : Scheme} {pol : Option Polarity} {bits : List Bit}
    (hpol : sch.requiresPol = true → pol.isSome = true) (hmax : withinMaxBits s.params bits.length = false) :
    acceptRequest (.scheme sch pol) bits s = .refused .tooManyBits := by
  simp only [acceptRequest, hspb, hidle, no_missing_polarity hpol, hmax, if_true, if_false, Bool.false_eq_true]

theorem exec_unrecognised {i : Instr} (hd : i.decoded = .unrecognised) :
    exec i s = .next (s.raiseError .unsupportedSchemeError) := by
  rw [exec_eq_acceptRequest, hd, acceptRequest_unrecognised hidle hspb]

theorem exec_missing_polarity {i : Instr} {sch : Scheme} (hd : i.decoded = .scheme sch none)
    (hreq : sch.requiresPol = true) : exec i s = .next (s.raiseError .configError) := by
  rw [exec_eq_acceptRequest, hd, acceptRequest_missing_polarity hidle hspb hreq]

theorem exec_accepts {i : Instr} {sch : Scheme} {pol : Option Polarity} (hd : i.decoded = .scheme sch pol)
    (hpol : sch.requiresPol = true → pol.isSome = true) (hmax : withinMaxBits s.params i.bits.length = true) :
    exec i s = .next (s.startRun sch (seed sch pol) i.bits) := by
  rw [exec_eq_acceptRequest, hd, acceptRequest_accepts hidle hspb hpol hmax]

theorem exec_too_long {i : Instr} {sch : Scheme} {pol : Option Polarity} (hd : i.decoded = .scheme sch pol)
    (hpol : sch.requiresPol = true → pol.isSome = true) (hmax : withinMaxBits s.params i.bits.length = false) :
    exec i s = .refused .tooManyBits := by
  rw [exec_eq_acceptRequest, hd, acceptRequest_too_long hidle hspb hpol hmax]

end

/-- A scheme that has the polarity it needs, by the two checks of R155. -/
theorem polarity_given_of_not_missing {sch : Scheme} {pol : Option Polarity}
    (h : ¬(sch.requiresPol = true ∧ pol = none)) : sch.requiresPol = true → pol.isSome = true := by
  intro hreq
  exact Option.isSome_iff_ne_none.mpr fun hnone => h ⟨hreq, hnone⟩

/-- The polarity of a decoded scheme is the seed: a stateless scheme is given none (30_encoding.md R55). -/
theorem seed_decoded {i : Instr} {sch : Scheme} {pol : Option Polarity} (hd : i.decoded = .scheme sch pol) :
    seed sch pol = pol := by
  cases i <;> cases hd <;> rfl

theorem withinMaxBits_eq_false_iff {p : Params} {n : Nat} :
    withinMaxBits p n = false ↔ ∃ m, p.maxBits = some m ∧ m < n := by
  cases h : p.maxBits <;> simp [withinMaxBits, h]

/-- The four outcomes of the checks, in the order of 60_exceptions.md R155. -/
theorem validation_cases (p : Params) (d : Decoded) (n : Nat) :
    d = .unrecognised ∨ (∃ sch, d = .scheme sch none ∧ sch.requiresPol = true) ∨
      ∃ sch pol, d = .scheme sch pol ∧ (sch.requiresPol = true → pol.isSome = true) ∧
        (withinMaxBits p n = true ∨ withinMaxBits p n = false) := by
  cases d with
  | unrecognised => exact .inl rfl
  | scheme sch pol =>
    by_cases hmissing : sch.requiresPol = true ∧ pol = none
    · obtain ⟨hreq, rfl⟩ := hmissing
      exact .inr (.inl ⟨sch, rfl, hreq⟩)
    · exact .inr (.inr ⟨sch, pol, rfl, polarity_given_of_not_missing hmissing, Bool.eq_false_or_eq_true _⟩)

/-- Settles O11: the polarity is not needed, and no LEVEL is seeded. -/
theorem statelessRequestsAreAccepted : Obligations.StatelessRequestsAreAccepted := by
  intro s spb pv pol bits hidle hspb hmax
  have hfree {sch : Scheme} {p : Option Polarity} (h : sch.requiresPol = false) :
      sch.requiresPol = true → p.isSome = true := by simp [h]
  exact ⟨exec_accepts (i := .nrzL pv pol bits) hidle hspb rfl (hfree rfl) hmax,
    exec_accepts (i := .manchester pv pol bits) hidle hspb rfl (hfree rfl) hmax⟩

/-- Settles O12: PV = 1 gives the polarity, and it is the seed. -/
theorem statefulRequestsAreAcceptedWithTheirSeed : Obligations.StatefulRequestsAreAcceptedWithTheirSeed := by
  intro s spb pol bits hidle hspb hmax
  exact ⟨exec_accepts (i := .nrzI true pol bits) hidle hspb rfl (fun _ => rfl) hmax,
    exec_accepts (i := .bipolarAmi true pol bits) hidle hspb rfl (fun _ => rfl) hmax,
    exec_accepts (i := .pseudoternary true pol bits) hidle hspb rfl (fun _ => rfl) hmax,
    exec_accepts (i := .differentialManchester true pol bits) hidle hspb rfl (fun _ => rfl) hmax⟩

/-- A scheme that needs a polarity is given none only by PV = 0. -/
theorem pv_of_suppliedPolarity_eq_none {sch : Scheme} {pv pol : Bool} (hreq : sch.requiresPol = true)
    (h : sch.suppliedPolarity pv pol = none) : pv = false := by
  cases pv with
  | false => rfl
  | true => simp [Scheme.suppliedPolarity, initialPolarity, hreq] at h

/-- The instructions that miss the polarity they need are the stateful ones with PV = 0. -/
theorem decoded_missing_polarity_iff (i : Instr) :
    (∃ sch, i.decoded = .scheme sch none ∧ sch.requiresPol = true) ↔
      ∃ bits pol, i = .nrzI false pol bits ∨ i = .bipolarAmi false pol bits ∨ i = .pseudoternary false pol bits ∨
        i = .differentialManchester false pol bits := by
  constructor
  · rintro ⟨sch, hd, hreq⟩
    cases i with
    | nrzL | manchester => injection hd with hsch; subst hsch; cases hreq
    | unsupported110 | unsupported111 => cases hd
    | nrzI pv pol bits | bipolarAmi pv pol bits | pseudoternary pv pol bits | differentialManchester pv pol bits =>
      injection hd with hsch hnone
      subst hsch
      obtain rfl := pv_of_suppliedPolarity_eq_none hreq hnone
      exact ⟨bits, pol, by simp⟩
  · rintro ⟨bits, pol, rfl | rfl | rfl | rfl⟩ <;> exact ⟨_, rfl, rfl⟩

/-- The instructions with no scheme are the two reserved codes. -/
theorem decoded_unrecognised_iff (i : Instr) :
    i.decoded = .unrecognised ↔ ∃ bits pv pol, i = .unsupported110 pv pol bits ∨ i = .unsupported111 pv pol bits := by
  constructor
  · intro hd
    cases i <;> simp_all [Instr.decoded]
  · rintro ⟨bits, pv, pol, rfl | rfl⟩ <;> rfl

/-- Settles O13: each of the four misses the polarity it needs. -/
theorem missingPolarityIsConfigError : Obligations.MissingPolarityIsConfigError := by
  intro s spb pol bits hidle hspb i hi
  simp only [List.mem_cons, List.not_mem_nil, or_false] at hi
  obtain ⟨sch, hd, hreq⟩ := (decoded_missing_polarity_iff i).mpr ⟨bits, pol, hi⟩
  exact exec_missing_polarity hidle hspb hd hreq

/-- The step after an error is raised delivers it. -/
theorem step_of_raiseError {s : State} (hquiet : s.inbox = []) (e : ErrorKind) :
    step (s.raiseError e) = .next (s.answered (.err e)) :=
  step_responds (s := s.raiseError e) hquiet (.inr rfl) rfl

/-- An error is delivered by the one step after the arrival, and the block then waits in IDLE. -/
theorem answers_of_raiseError {s : State} {i : Instr} {e : ErrorKind} (hquiet : s.inbox = [])
    (hexec : exec i s = .next (s.raiseError e)) : Answers s i (.err e) := by
  exact ⟨_, hexec, (run_succ (step_of_raiseError hquiet e) _).trans (run_idle (s := s.answered (.err e)) rfl hquiet _)⟩

/-- Settles O14: neither reserved code has a scheme. -/
theorem reservedSchemeCodesAreUnsupported : Obligations.ReservedSchemeCodesAreUnsupported := by
  intro s spb pv pol bits hidle hspb i hi
  simp only [List.mem_cons, List.not_mem_nil, or_false] at hi
  have hexec := exec_unrecognised hidle hspb ((decoded_unrecognised_iff i).mpr ⟨bits, pv, pol, hi⟩)
  exact ⟨hexec, fun hquiet => answers_of_raiseError hquiet hexec⟩

/-- Settles O15: of the three ways to accept, two write an error to RESULT, each its own, and starting a run writes
none. -/
theorem errorsAreRaisedExactlyByTheirCauses : Obligations.ErrorsAreRaisedExactlyByTheirCauses := by
  intro s spb i hidle hres hspb
  rw [← decoded_missing_polarity_iff, ← decoded_unrecognised_iff]
  refine ⟨⟨?onlyConfig, ?config⟩, ⟨?onlyUnsupported, ?unsupported⟩⟩
  case config => exact fun ⟨sch, hd, hreq⟩ => ⟨_, exec_missing_polarity hidle hspb hd hreq, rfl⟩
  case unsupported => exact fun hd => ⟨_, exec_unrecognised hidle hspb hd, rfl⟩
  case onlyConfig =>
    rintro ⟨t, hexec, herr⟩
    rw [exec_eq_acceptRequest] at hexec
    obtain ⟨-, -, ⟨-, rfl⟩ | ⟨sch, hd, hreq, -⟩ | ⟨_, _, -, -, -, rfl⟩⟩ := acceptRequest_next hexec
    · cases herr
    · exact ⟨sch, hd, hreq⟩
    · cases hres.symm.trans herr
  case onlyUnsupported =>
    rintro ⟨t, hexec, herr⟩
    rw [exec_eq_acceptRequest] at hexec
    obtain ⟨-, -, ⟨hd, -⟩ | ⟨_, -, -, rfl⟩ | ⟨_, _, -, -, -, rfl⟩⟩ := acceptRequest_next hexec
    · exact hd
    · cases herr
    · cases hres.symm.trans herr

/-- Settles O16: the error stands in the step of the arrival, and the next step delivers it. -/
theorem errorsComeBeforeAnyComputation : Obligations.ErrorsComeBeforeAnyComputation := by
  intro s spb i hidle hquiet hspb herror
  obtain hd | ⟨sch, hd, hreq⟩ := herror
  · exact ⟨_, _, exec_unrecognised hidle hspb hd, rfl, step_of_raiseError hquiet _⟩
  · exact ⟨_, _, exec_missing_polarity hidle hspb hd hreq, rfl, step_of_raiseError hquiet _⟩

/-- Settles O17: each branch is one of the four answers of acceptance in IDLE. -/
theorem validationReportsTheFirstCause : Obligations.ValidationReportsTheFirstCause := by
  intro s spb i hidle hspb
  split
  case h_1 hd => exact exec_unrecognised hidle hspb hd
  case h_2 sch pol hd =>
    split_ifs with hmissing hlong
    · obtain ⟨hreq, rfl⟩ := hmissing
      exact exec_missing_polarity hidle hspb hd hreq
    · have hgiven := polarity_given_of_not_missing hmissing
      exact exec_too_long hidle hspb hd hgiven (withinMaxBits_eq_false_iff.mpr hlong)
    · have hgiven := polarity_given_of_not_missing hmissing
      have hmax := Bool.of_not_eq_false (mt withinMaxBits_eq_false_iff.mp hlong)
      rw [exec_accepts hidle hspb hd hgiven hmax, seed_decoded hd]

/-- Settles O18: that the block is free is checked before the request is decoded. -/
theorem requestsWhileBusyAreRefused : Obligations.RequestsWhileBusyAreRefused := by
  intro s spb i hspb hbusy
  exact (exec_eq_acceptRequest i s).trans (acceptRequest_busy hspb hbusy _ _)

/-- Settles O19: SPB is the first check, whatever the phase and the request. -/
theorem instancesWithoutAPositiveIntegralSpbRefuse : Obligations.InstancesWithoutAPositiveIntegralSpbRefuse := by
  intro s i hspb
  exact (exec_eq_acceptRequest i s).trans (acceptRequest_badSpb hspb _ _)

/-- exec reads an instruction through its decoded scheme and its bits alone. -/
theorem exec_congr {i i' : Instr} (hd : i.decoded = i'.decoded) (hbits : i.bits = i'.bits) (s : State) :
    exec i s = exec i' s := by
  rw [exec_eq_acceptRequest, exec_eq_acceptRequest, hd, hbits]

/-- Settles O20: the fields that are ignored do not show in the decoded scheme. -/
theorem ignoredPolarityFieldsChangeNothing : Obligations.IgnoredPolarityFieldsChangeNothing := by
  intro s pv pv' pol pol' bits
  exact ⟨exec_congr rfl rfl s, exec_congr rfl rfl s, exec_congr rfl rfl s, exec_congr rfl rfl s,
    exec_congr rfl rfl s, exec_congr rfl rfl s⟩

end Sys2Proof.Machine
end

section
/-! PROOFS. The steps of Pseudoternary, Manchester and Differential Manchester (42_ami_family.md R121, 43_manchester.md
R131, R141): the level and the block each rule gives for the next bit, and the writes they make. -/

namespace Sys2Proof.Machine

/-- On a 0 bit the block of Pseudoternary is at the opposite of the last nonzero polarity, which it becomes. -/
theorem schemeStep_pseudoternary_mark (spb : Nat) (p : Polarity) :
    schemeStep .pseudoternary spb (some p) false =
      some (some (negPolarity p), List.replicate spb (sampleOf (negPolarity p))) :=
  schemeStep_pseudoternary spb p false

/-- On a 1 bit the block of Pseudoternary is all zeros, and the last nonzero polarity stays. -/
theorem schemeStep_pseudoternary_space (spb : Nat) (p : Polarity) :
    schemeStep .pseudoternary spb (some p) true = some (some p, List.replicate spb Sample.zero) :=
  schemeStep_pseudoternary spb p true

/-- Settles O25: the rule inverts LEVEL on a 0 bit and emits what it inverted to; on a 1 bit it keeps LEVEL. -/
theorem pseudoternaryStepAlternatesOnZeros : Obligations.PseudoternaryStepAlternatesOnZeros := by
  intro s spb p hquiet hrun hsch hlevel hspb
  refine ⟨fun hmark => ?mark, fun hspace => ?space⟩
  case mark =>
    exact step_emits_block hquiet hrun hsch hspb hmark (hlevel ▸ schemeStep_pseudoternary_mark spb p)
  case space =>
    exact step_emits_block_keeping_level hquiet hrun hsch hspb hspace
      (hlevel ▸ schemeStep_pseudoternary_space spb p)

/-- Manchester reads the bit alone, and gives LEVEL back. -/
theorem schemeStep_manchester_halves (spb : Nat) (level : Option Polarity) (b : Bit) :
    schemeStep .manchester spb level b =
      some (level, if b then expandHalves .pos .neg spb else expandHalves .neg .pos spb) :=
  schemeStep_manchester spb level b

/-- Settles O26: the rule keeps LEVEL, and its halves are those of the bit. -/
theorem manchesterStepSplitsTheBit : Obligations.ManchesterStepSplitsTheBit := by
  intro s spb hquiet hrun hsch hspb
  refine ⟨fun hone => ?one, fun hzero => ?zero⟩
  case one =>
    exact step_emits_block_keeping_level hquiet hrun hsch hspb hone (schemeStep_manchester_halves spb s.level true)
  case zero =>
    exact step_emits_block_keeping_level hquiet hrun hsch hspb hzero (schemeStep_manchester_halves spb s.level false)

/-- On a 1 bit Differential Manchester starts at the line level and ends at its opposite. -/
theorem schemeStep_differentialManchester_one (spb : Nat) (p : Polarity) :
    schemeStep .differentialManchester spb (some p) true =
      some (some (negPolarity p), expandHalves (sampleOf p) (sampleOf (negPolarity p)) spb) :=
  schemeStep_differentialManchester spb p true

/-- On a 0 bit Differential Manchester starts at the opposite of the line level and ends at it. -/
theorem schemeStep_differentialManchester_zero (spb : Nat) (p : Polarity) :
    schemeStep .differentialManchester spb (some p) false =
      some (some p, expandHalves (sampleOf (negPolarity p)) (sampleOf p) spb) := by
  rw [schemeStep_differentialManchester]
  simp [stepDifferentialManchester]

/-- Settles O27: on a 1 bit the rule gives LEVEL its opposite; on a 0 bit its two inversions give LEVEL back. -/
theorem differentialManchesterStepFollowsTheLineLevel :
    Obligations.DifferentialManchesterStepFollowsTheLineLevel := by
  intro s spb p hquiet hrun hsch hlevel hspb
  refine ⟨fun hone => ?one, fun hzero => ?zero⟩
  case one =>
    exact step_emits_block hquiet hrun hsch hspb hone (hlevel ▸ schemeStep_differentialManchester_one spb p)
  case zero =>
    exact step_emits_block_keeping_level hquiet hrun hsch hspb hzero
      (hlevel ▸ schemeStep_differentialManchester_zero spb p)

/-- A rule that needs a level has a result only where LEVEL holds a value. -/
theorem onLevel_eq_some {f : Polarity → Bit → Polarity × Waveform} {level level' : Option Polarity} {b : Bit}
    {blk : Waveform} (h : onLevel f level b = some (level', blk)) :
    ∃ p, level = some p ∧ level' = some (f p b).1 ∧ blk = (f p b).2 := by
  cases level with
  | none => cases h
  | some p => cases h; exact ⟨p, rfl, rfl, rfl⟩

section
variable {sch : Scheme} {spb : Nat} {level level' : Option Polarity} {b : Bit} {blk : Waveform}
  (h : schemeStep sch spb level b = some (level', blk))
include h

/-- The blocks of NRZ and of the AMI family are one EXPAND call. -/
theorem schemeStep_block_expand (hsch : sch ∈ [Scheme.nrzL, .nrzI, .bipolarAmi, .pseudoternary]) :
    ∃ v, blk = expand v spb := by
  simp only [List.mem_cons, List.not_mem_nil, or_false] at hsch
  obtain rfl | rfl | rfl | rfl := hsch
  · cases h; exact ⟨_, rfl⟩
  · obtain ⟨p, -, -, rfl⟩ := onLevel_eq_some h; exact ⟨_, rfl⟩
  · obtain ⟨p, -, -, rfl⟩ := onLevel_eq_some h; cases b <;> exact ⟨_, rfl⟩
  · obtain ⟨p, -, -, rfl⟩ := onLevel_eq_some h; cases b <;> exact ⟨_, rfl⟩

/-- The blocks of the Manchester family are two EXPAND calls of H samples each. -/
theorem schemeStep_block_expandHalves (hsch : sch ∈ [Scheme.manchester, .differentialManchester]) :
    ∃ v1 v2, blk = expandHalves v1 v2 spb := by
  simp only [List.mem_cons, List.not_mem_nil, or_false] at hsch
  obtain rfl | rfl := hsch
  · cases h; cases b <;> exact ⟨_, _, rfl⟩
  · obtain ⟨p, -, -, rfl⟩ := onLevel_eq_some h; exact ⟨_, _, rfl⟩

end

/-- Settles O28: the length is that of the EXPAND calls. -/
theorem everyBlockHasTheLengthOfItsScheme : Obligations.EveryBlockHasTheLengthOfItsScheme := by
  intro sch spb level level' b blk h
  refine ⟨fun hsch => ?one, fun hsch => ?halves⟩
  case one =>
    obtain ⟨v, rfl⟩ := schemeStep_block_expand h hsch
    exact ⟨expand_length v spb, v, rfl⟩
  case halves =>
    obtain ⟨v1, v2, rfl⟩ := schemeStep_block_expandHalves h hsch
    exact ⟨expandHalves_length v1 v2 spb, v1, v2, rfl⟩

end Sys2Proof.Machine
end

section
/-! PROOFS. What the invariants give: the reset state meets them, no step faults, and CURSOR moves by one
(70_reset_and_hazards.md R170, 60_exceptions.md R156, 10_state.md R23). -/

namespace Sys2Proof.Machine

/-- Settles O47: a reset meets the phase invariant, and in IDLE the fold invariant asks nothing. -/
theorem resetMeetsTheInvariants : Obligations.ResetMeetsTheInvariants :=
  ⟨phaseInv_resetBlock State.reset, foldInv_of_idle_or_err (.inl rfl)⟩

/-- In RUN the phase invariant keeps CURSOR within n. -/
theorem PhaseInv.cursor_le_of_run {s : State} (h : PhaseInv s) (hrun : s.phase = .run) :
    s.cursor ≤ s.bits.length := by
  simp only [PhaseInv, hrun] at h
  obtain ⟨_, _, -, -, -, hle, -⟩ := h
  exact hle

/-- In RUN the phase invariant gives the fold step all that it reads. -/
theorem PhaseInv.foldStep_exists {s : State} (h : PhaseInv s) (hrun : s.phase = .run) (b : Bit) :
    ∃ t, s.foldStep b = .next t := by
  simp only [PhaseInv, hrun] at h
  obtain ⟨sch, spb, hsch, hspb, hlevel, -⟩ := h
  obtain ⟨level, blk, hrule⟩ := schemeStep_isSome hlevel spb b
  exact ⟨_, foldStep_eq hspb hsch hrule⟩

/-- The block's own transition never stops where the phase invariant holds. -/
theorem PhaseInv.advance_exists {s : State} (h : PhaseInv s) : ∃ t, advance s = .next t := by
  cases hp : s.phase with
  | idle => exact ⟨s, advance_of_idle hp⟩
  | run =>
    cases hbit : s.bits[s.cursor]? with
    | some b => rw [advance_of_run hp hbit]; exact h.foldStep_exists hp b
    | none => exact ⟨_, advance_of_run_end hp (List.getElem?_eq_none_iff.mp hbit)⟩
  | done => exact ⟨_, advance_of_done_or_err (.inl hp) (h.result_of_done hp)⟩
  | err =>
    obtain ⟨e, he⟩ := h.result_of_err hp
    exact ⟨_, advance_of_done_or_err (.inr hp) he⟩

/-- An arrival has a next state or is refused by one of three names. -/
theorem acceptRequest_next_or_refused (d : Decoded) (bits : List Bit) (s : State) :
    (∃ t, acceptRequest d bits s = .next t) ∨ acceptRequest d bits s = .refused .badSpb ∨
      acceptRequest d bits s = .refused .busy ∨ acceptRequest d bits s = .refused .tooManyBits := by
  cases hspb : samplesPerBit s.params with
  | none => exact .inr (.inl (acceptRequest_badSpb hspb d bits))
  | some spb =>
    by_cases hidle : s.phase = .idle
    · obtain rfl | ⟨sch, rfl, hreq⟩ | ⟨sch, pol, rfl, hpol, hmax | hmax⟩ := validation_cases s.params d bits.length
      · exact .inl ⟨_, acceptRequest_unrecognised hidle hspb bits⟩
      · exact .inl ⟨_, acceptRequest_missing_polarity hidle hspb hreq bits⟩
      · exact .inl ⟨_, acceptRequest_accepts hidle hspb hpol hmax⟩
      · exact .inr (.inr (.inr (acceptRequest_too_long hidle hspb hpol hmax)))
    · exact .inr (.inr (.inl (acceptRequest_busy hspb hidle d bits)))

/-- Settles O50: a step with no request is the block's transition or a reset, and an arrival has one of four answers. -/
theorem noStepFaults : Obligations.NoStepFaults := by
  intro s hinv
  refine ⟨fun hnone => ?quiet, fun r rest hreq => ?arrival⟩
  case quiet =>
    cases hi : s.inbox with
    | nil => rw [step_of_quiet hi]; exact hinv.advance_exists
    | cons ev rest =>
      cases ev with
      | request r => exact absurd hi (hnone r rest)
      | tick => rw [step_of_tick hi]; exact PhaseInv.advance_exists (s := { s with inbox := rest }) hinv
      | reset => exact ⟨_, step_of_reset hi⟩
  case arrival =>
    rw [step_of_request hreq, exec_eq_acceptRequest]
    exact acceptRequest_next_or_refused _ _ _

/-- Settles O54: in RUN a step emits one block, finishes or resets, and only the finish comes with CURSOR at n. -/
theorem cursorMovesOnByOne : Obligations.CursorMovesOnByOne := by
  intro s t hinv h hrun
  obtain ⟨rest, ⟨b, _, _, level, blk, hbit, -, -, -, rfl⟩ | ⟨hend, rfl⟩ | rfl⟩ := step_next_of_run h hrun
  · obtain ⟨hlt, -⟩ := List.getElem?_eq_some_iff.mp hbit
    refine ⟨fun _ => ⟨rfl, hlt, rfl⟩, fun hdone => ?_, .inl hrun⟩
    cases hrun.symm.trans hdone
  · have hcursor : s.cursor = s.bits.length := Nat.le_antisymm (hinv.cursor_le_of_run hrun) hend
    refine ⟨fun hrun' => ?_, fun _ => ⟨rfl, hcursor, rfl⟩, .inr (.inl rfl)⟩
    cases hrun'
  · refine ⟨fun hrun' => ?_, fun hdone => ?_, .inr (.inr rfl)⟩
    · cases hrun'
    · cases hdone

end Sys2Proof.Machine
end

section
/-! PROOFS. The fold over a list of bits: where it splits, the length of its waveform, and the level it ends at
(40_dispatch.md R73, R81; 10_state.md R22). -/

namespace Sys2Proof.Machine

section
variable {sch : Scheme} {spb : Nat} {level last : Option Polarity} {w : Waveform}

theorem encodeFold_nil_eq_some : encodeFold sch spb level [] = some (last, w) ↔ last = level ∧ w = [] := by
  simp only [encodeFold, Option.some.injEq, Prod.mk.injEq, eq_comm]

/-- The fold over a first bit and the rest. -/
theorem encodeFold_cons_eq_some {b : Bit} {bs : List Bit} :
    encodeFold sch spb level (b :: bs) = some (last, w) ↔
      ∃ level' blk w', schemeStep sch spb level b = some (level', blk) ∧
        encodeFold sch spb level' bs = some (last, w') ∧ w = blk ++ w' := by
  constructor
  · intro h
    simp only [encodeFold] at h
    split at h
    · cases h
    · rename_i level' blk hstep
      split at h
      · cases h
      · rename_i last' w' hrest
        cases h
        exact ⟨level', blk, w', hstep, hrest, rfl⟩
  · rintro ⟨level', blk, w', hstep, hrest, rfl⟩
    simp only [encodeFold, hstep, hrest]

/-- The fold over two parts: the second starts at the level where the first ends. -/
theorem encodeFold_append_eq_some {xs ys : List Bit} :
    encodeFold sch spb level (xs ++ ys) = some (last, w) ↔
      ∃ mid w₁ w₂, encodeFold sch spb level xs = some (mid, w₁) ∧ encodeFold sch spb mid ys = some (last, w₂) ∧
        w = w₁ ++ w₂ := by
  induction xs generalizing level w with
  | nil =>
    constructor
    · exact fun h => ⟨level, [], w, rfl, h, rfl⟩
    · rintro ⟨mid, w₁, w₂, hnil, h, rfl⟩
      obtain ⟨rfl, rfl⟩ := encodeFold_nil_eq_some.mp hnil
      exact h
  | cons b xs ih =>
    simp only [List.cons_append, encodeFold_cons_eq_some, ih]
    constructor
    · rintro ⟨level', blk, _, hstep, ⟨mid, w₁, w₂, hxs, hys, rfl⟩, rfl⟩
      exact ⟨mid, blk ++ w₁, w₂, ⟨level', blk, w₁, hstep, hxs, rfl⟩, hys, (List.append_assoc blk w₁ w₂).symm⟩
    · rintro ⟨mid, _, w₂, ⟨level', blk, w₁, hstep, hxs, rfl⟩, hys, rfl⟩
      exact ⟨level', blk, w₁ ++ w₂, hstep, ⟨mid, w₁, w₂, hxs, hys, rfl⟩, List.append_assoc blk w₁ w₂⟩

/-- The fold over the first `j + 1` bits is one step more than that over the first `j`. -/
theorem encodeFold_take_succ {bits : List Bit} {j : Nat} {b : Bit} (hbit : bits[j]? = some b)
    (h : encodeFold sch spb level (bits.take (j + 1)) = some (last, w)) :
    ∃ mid w₁ blk, encodeFold sch spb level (bits.take j) = some (mid, w₁) ∧
      schemeStep sch spb mid b = some (last, blk) ∧ w = w₁ ++ blk := by
  rw [take_succ_of_getElem? hbit] at h
  obtain ⟨mid, w₁, _, hpre, hone, rfl⟩ := encodeFold_append_eq_some.mp h
  obtain ⟨_, blk, _, hstep, hnil, rfl⟩ := encodeFold_cons_eq_some.mp hone
  obtain ⟨rfl, rfl⟩ := encodeFold_nil_eq_some.mp hnil
  exact ⟨mid, w₁, blk, hpre, hstep, by rw [List.append_nil]⟩

/-- A waveform has one block per bit. -/
theorem encodeFold_length {bits : List Bit} (h : encodeFold sch spb level bits = some (last, w)) :
    w.length = bits.length * blocklen sch spb := by
  induction bits generalizing level w with
  | nil =>
    obtain ⟨-, rfl⟩ := encodeFold_nil_eq_some.mp h
    rw [List.length_nil, List.length_nil, Nat.zero_mul]
  | cons b bs ih =>
    obtain ⟨level', blk, w', hstep, hrest, rfl⟩ := encodeFold_cons_eq_some.mp h
    rw [List.length_append, schemeStep_length hstep, ih hrest, List.length_cons, Nat.succ_mul, Nat.add_comm]

end

/-! ## The level -/

@[simp] theorem invertTimes_zero (p : Polarity) : invertTimes p 0 = p := rfl

/-- One inversion more is the opposite: the parity of the count flips. -/
theorem invertTimes_succ (p : Polarity) (k : Nat) : invertTimes p (k + 1) = negPolarity (invertTimes p k) := by
  rcases Nat.mod_two_eq_zero_or_one k with hk | hk
  · have hk' : (k + 1) % 2 = 1 := by omega
    simp [invertTimes, hk, hk']
  · have hk' : (k + 1) % 2 = 0 := by omega
    simp [invertTimes, hk, hk']

/-- Inversions compose by adding their counts. -/
theorem invertTimes_invertTimes (p : Polarity) (a b : Nat) :
    invertTimes (invertTimes p a) b = invertTimes p (a + b) := by
  induction b with
  | zero => rfl
  | succ b ih => rw [invertTimes_succ, ih, ← Nat.add_assoc, invertTimes_succ]

theorem invertTimes_negPolarity (p : Polarity) (k : Nat) :
    invertTimes (negPolarity p) k = negPolarity (invertTimes p k) := by
  rw [← invertTimes_succ, Nat.add_comm, ← invertTimes_invertTimes]
  rfl

/-- Whether a scheme inverts LEVEL on a bit (10_state.md R22): on a 1 in NRZ-I, Bipolar AMI and Differential Manchester,
on a 0 in Pseudoternary, never in the stateless schemes. -/
def invertsLevel (sch : Scheme) (b : Bit) : Bool :=
  match sch with
  | .nrzL | .manchester => false
  | .nrzI | .bipolarAmi | .differentialManchester => b
  | .pseudoternary => !b

/-- LEVEL after bits that were consumed from `level`: one inversion for each bit that inverts it. -/
def levelAfter (sch : Scheme) (level : Option Polarity) (bits : List Bit) : Option Polarity :=
  level.map fun p => invertTimes p (bits.countP (invertsLevel sch))

@[simp] theorem levelAfter_none (sch : Scheme) (bits : List Bit) : levelAfter sch none bits = none := rfl

@[simp] theorem levelAfter_nil (sch : Scheme) (level : Option Polarity) : levelAfter sch level [] = level := by
  cases level <;> rfl

theorem levelAfter_cons (sch : Scheme) (level : Option Polarity) (b : Bit) (bs : List Bit) :
    levelAfter sch level (b :: bs) = levelAfter sch (levelAfter sch level [b]) bs := by
  cases level with
  | none => rfl
  | some p =>
    simp only [levelAfter, Option.map_some, invertTimes_invertTimes, List.countP_cons, List.countP_nil, Nat.zero_add,
      Nat.add_comm]

/-- A step rule inverts LEVEL exactly on the bits that `invertsLevel` names. -/
theorem schemeStep_levelAfter {sch : Scheme} {spb : Nat} {level level' : Option Polarity} {b : Bit} {blk : Waveform}
    (h : schemeStep sch spb level b = some (level', blk)) : level' = levelAfter sch level [b] := by
  cases sch with
  | nrzL | manchester => cases h; cases level <;> rfl
  | nrzI | bipolarAmi | pseudoternary =>
    obtain ⟨p, rfl, rfl, -⟩ := onLevel_eq_some h
    cases b <;> rfl
  | differentialManchester =>
    obtain ⟨p, rfl, rfl, -⟩ := onLevel_eq_some h
    cases b with
    | true => rfl
    | false => exact congrArg some (negPolarity_negPolarity p)

/-- The fold ends at the level after its bits. -/
theorem encodeFold_levelAfter {sch : Scheme} {spb : Nat} {bits : List Bit} {level last : Option Polarity}
    {w : Waveform} (h : encodeFold sch spb level bits = some (last, w)) : last = levelAfter sch level bits := by
  induction bits generalizing level w with
  | nil =>
    obtain ⟨rfl, -⟩ := encodeFold_nil_eq_some.mp h
    exact (levelAfter_nil sch _).symm
  | cons b bs ih =>
    obtain ⟨level', _, _, hstep, hrest, -⟩ := encodeFold_cons_eq_some.mp h
    rw [ih hrest, schemeStep_levelAfter hstep, ← levelAfter_cons]

/-- In NRZ-I, Bipolar AMI and Differential Manchester the inversions are the 1 bits. -/
theorem levelAfter_of_inverts_ones {sch : Scheme} (h : invertsLevel sch = fun b => b) (p : Polarity)
    (bits : List Bit) : levelAfter sch (some p) bits = some (invertTimes p (bits.count true)) := by
  have hcount : bits.countP (invertsLevel sch) = bits.count true :=
    List.countP_congr fun b _ => by rw [h, beq_true]
  rw [levelAfter, Option.map_some, hcount]

/-- In Pseudoternary the inversions are the 0 bits. -/
theorem levelAfter_pseudoternary (p : Polarity) (bits : List Bit) :
    levelAfter .pseudoternary (some p) bits = some (invertTimes p (bits.count false)) := by
  have hcount : bits.countP (invertsLevel .pseudoternary) = bits.count false :=
    List.countP_congr fun b _ => by rw [beq_false]; rfl
  rw [levelAfter, Option.map_some, hcount]

end Sys2Proof.Machine
end

section
/-! PROOFS. Runs of a validated request: one step per bit, the finish and the response (40_dispatch.md R73 to R78). -/

namespace Sys2Proof.Machine

/-- A run of one step or more has a first step. -/
theorem run_succ_eq_next {s t : State} {k : Nat} (h : Host.Core.run Sys2Proof.core (k + 1) s = .next t) :
    ∃ u, step s = .next u ∧ Host.Core.run Sys2Proof.core k u = .next t := by
  cases hstep : step s with
  | next u => exact ⟨u, rfl, (run_succ hstep k).symm.trans h⟩
  | fault f =>
    have hcore : Sys2Proof.core.step s = .fault f := hstep
    simp [Host.Core.run, hcore] at h
  | refused r =>
    have hcore : Sys2Proof.core.step s = .refused r := hstep
    simp [Host.Core.run, hcore] at h

/-- A run goes on from where its first part ends. -/
theorem run_add {s t : State} {a : Nat} (h : Host.Core.run Sys2Proof.core a s = .next t) (b : Nat) :
    Host.Core.run Sys2Proof.core (a + b) s = Host.Core.run Sys2Proof.core b t := by
  induction a generalizing s with
  | zero => cases h; rw [Nat.zero_add]
  | succ a ih =>
    obtain ⟨u, hstep, hrest⟩ := run_succ_eq_next h
    rw [Nat.succ_add, run_succ hstep, ih hrest]

/-- A request for the scheme `sch` that passes validation in `s`, with what it seeds LEVEL with (40_dispatch.md R71,
R72): the decoder gives a stateless scheme no polarity, so what it gives is the seed. -/
structure Validated (s : State) (i : Instr) (sch : Scheme) (level : Option Polarity) : Prop where
  decoded : i.decoded = .scheme sch level
  given : sch.requiresPol = true → level.isSome = true
  within : withinMaxBits s.params i.bits.length = true

/-- The polarity of a POL bit (30_encoding.md R54). -/
abbrev polOf (pol : Bool) : Polarity := if pol then .high else .low

section
variable {s : State} {bits : List Bit} (hmax : withinMaxBits s.params bits.length = true)
include hmax

theorem validated_nrzL (pv pol : Bool) : Validated s (.nrzL pv pol bits) .nrzL none :=
  ⟨rfl, nofun, hmax⟩

theorem validated_manchester (pv pol : Bool) : Validated s (.manchester pv pol bits) .manchester none :=
  ⟨rfl, nofun, hmax⟩

theorem validated_nrzI (pol : Bool) : Validated s (.nrzI true pol bits) .nrzI (some (polOf pol)) :=
  ⟨rfl, fun _ => rfl, hmax⟩

theorem validated_bipolarAmi (pol : Bool) : Validated s (.bipolarAmi true pol bits) .bipolarAmi (some (polOf pol)) :=
  ⟨rfl, fun _ => rfl, hmax⟩

theorem validated_pseudoternary (pol : Bool) :
    Validated s (.pseudoternary true pol bits) .pseudoternary (some (polOf pol)) :=
  ⟨rfl, fun _ => rfl, hmax⟩

theorem validated_differentialManchester (pol : Bool) :
    Validated s (.differentialManchester true pol bits) .differentialManchester (some (polOf pol)) :=
  ⟨rfl, fun _ => rfl, hmax⟩

end

section
variable {s : State} {spb : Nat} {sch : Scheme} {level last : Option Polarity} {i : Instr} {w : Waveform}

/-- A validated request starts a run. -/
theorem Validated.exec_eq (hv : Validated s i sch level) (hready : Ready s spb) :
    exec i s = .next (s.startRun sch level i.bits) := by
  rw [exec_accepts hready.idle hready.spb hv.decoded hv.given hv.within, seed_decoded hv.decoded]

/-- The fold of a validated request has a result. -/
theorem Validated.fold_exists (hv : Validated s i sch level) (spb : Nat) (bits : List Bit) :
    ∃ last w, encodeFold sch spb level bits = some (last, w) := by
  have hlevel := seed_isSome hv.given
  rw [seed_decoded hv.decoded] at hlevel
  exact encodeFold_isSome sch spb bits level hlevel

/-- After `j` steps of a run, LEVEL and WAVE are the fold of the first `j` bits, and CURSOR is `j`. -/
theorem run_startRun_take (hready : Ready s spb) {bits : List Bit} {j : Nat} (hj : j ≤ bits.length)
    (hfold : encodeFold sch spb level (bits.take j) = some (last, w)) :
    Host.Core.run Sys2Proof.core j (s.startRun sch level bits) =
      .next { s.startRun sch level bits with level := last, wave := w, cursor := j } := by
  induction j generalizing last w with
  | zero =>
    obtain ⟨rfl, rfl⟩ := encodeFold_nil_eq_some.mp hfold
    rfl
  | succ j ih =>
    have hbit : bits[j]? = some bits[j] := List.getElem?_eq_getElem hj
    obtain ⟨mid, w₁, blk, hpre, hrule, rfl⟩ := encodeFold_take_succ hbit hfold
    have hnext := step_emits_block
      (s := { s.startRun sch level bits with level := mid, wave := w₁, cursor := j })
      hready.quiet rfl rfl hready.spb hbit hrule
    rw [run_add (ih (Nat.le_of_succ_le hj) hpre), run_succ hnext, run_zero]
    rfl

/-- One step per bit and one more lead to DONE, with the fold of all the bits in LEVEL and WAVE. -/
theorem run_startRun_finish (hready : Ready s spb) {bits : List Bit}
    (hfold : encodeFold sch spb level bits = some (last, w)) :
    Host.Core.run Sys2Proof.core (bits.length + 1) (s.startRun sch level bits) =
      .next (State.finish { s.startRun sch level bits with level := last, wave := w, cursor := bits.length }) := by
  rw [← List.take_length (l := bits)] at hfold
  have hfinish := step_finishes
    (s := { s.startRun sch level bits with level := last, wave := w, cursor := bits.length })
    hready.quiet rfl le_rfl
  rw [run_add (run_startRun_take hready le_rfl hfold), run_succ hfinish, run_zero]

/-- A validated request is answered with the waveform of the fold. -/
theorem Validated.answers (hv : Validated s i sch level) (hready : Ready s spb)
    (hfold : encodeFold sch spb level i.bits = some (last, w)) : Answers s i (.ok w) := by
  have hresponds := step_responds (r := .ok)
    (s := State.finish { s.startRun sch level i.bits with level := last, wave := w, cursor := i.bits.length })
    hready.quiet (.inl rfl) rfl
  refine ⟨_, hv.exec_eq hready, ?_⟩
  rw [run_add (a := i.bits.length + 1) (b := 1) (run_startRun_finish hready hfold), run_succ hresponds, run_zero]
  rfl

end

/-- MAX_BITS admits a request with no bits. -/
theorem withinMaxBits_zero (p : Params) : withinMaxBits p 0 = true := by
  cases h : p.maxBits <;> simp [withinMaxBits, h]

/-- A validated request with no bits goes from RUN to DONE in one step, and its response is the empty waveform. -/
theorem Validated.empty_request {s : State} {spb : Nat} {sch : Scheme} {level : Option Polarity} {i : Instr}
    (hv : Validated s i sch level) (hready : Ready s spb) (hbits : i.bits = []) :
    ∃ t u, exec i s = .next t ∧ t.phase = .run ∧ step t = .next u ∧ u.phase = .done ∧ u.wave = [] ∧
      step u = .next (s.answered (.ok [])) := by
  have hexec := hv.exec_eq hready
  rw [hbits] at hexec
  have hfinish := step_finishes (s := s.startRun sch level []) hready.quiet rfl le_rfl
  have hresponds := step_responds (r := .ok) (s := (s.startRun sch level []).finish) hready.quiet (.inl rfl) rfl
  exact ⟨_, _, hexec, rfl, hfinish, rfl, rfl, hresponds⟩

/-- Settles O31: all six pass validation with no bits. -/
theorem emptyRequestsGiveTheEmptyWaveform : Obligations.EmptyRequestsGiveTheEmptyWaveform := by
  intro s spb pv pol hready i hi
  have hmax : withinMaxBits s.params ([] : List Bit).length = true := withinMaxBits_zero s.params
  simp only [List.mem_cons, List.not_mem_nil, or_false] at hi
  obtain rfl | rfl | rfl | rfl | rfl | rfl := hi
  · exact (validated_nrzL hmax pv pol).empty_request hready rfl
  · exact (validated_nrzI hmax pol).empty_request hready rfl
  · exact (validated_bipolarAmi hmax pol).empty_request hready rfl
  · exact (validated_pseudoternary hmax pol).empty_request hready rfl
  · exact (validated_manchester hmax pv pol).empty_request hready rfl
  · exact (validated_differentialManchester hmax pol).empty_request hready rfl

/-- Settles O32: after `j` steps CURSOR is `j`, and the finish is the step after the last bit. -/
theorem acceptedRequestsTakeOneStepPerBit : Obligations.AcceptedRequestsTakeOneStepPerBit := by
  intro s spb sch pol i hready hd hpol hmax
  have hv : Validated s i sch pol := ⟨hd, hpol, hmax⟩
  refine ⟨_, hv.exec_eq hready, fun j hj => ?_, ?_⟩
  · obtain ⟨last, w, hfold⟩ := hv.fold_exists spb (i.bits.take j)
    exact ⟨_, run_startRun_take hready hj hfold, rfl, rfl⟩
  · obtain ⟨last, w, hfold⟩ := hv.fold_exists spb i.bits
    exact ⟨_, run_startRun_finish hready hfold, rfl, rfl⟩

/-- LEVEL after `j` steps of a validated request. -/
theorem Validated.level_after_steps {s : State} {spb : Nat} {sch : Scheme} {level : Option Polarity} {i : Instr}
    (hv : Validated s i sch level) (hready : Ready s spb) {j : Nat} (hj : j ≤ i.bits.length) :
    ∃ t u, exec i s = .next t ∧ Host.Core.run Sys2Proof.core j t = .next u ∧
      u.level = levelAfter sch level (i.bits.take j) := by
  obtain ⟨last, w, hfold⟩ := hv.fold_exists spb (i.bits.take j)
  exact ⟨_, _, hv.exec_eq hready, run_startRun_take hready hj hfold, encodeFold_levelAfter hfold⟩

/-- Settles O33: LEVEL after `j` steps is the level after the first `j` bits, which the scheme's inverting bits give. -/
theorem levelAfterTheFirstBits : Obligations.LevelAfterTheFirstBits := by
  intro s spb pv pol bits j hready hmax hj
  simp only [List.forall_mem_cons, List.not_mem_nil, false_imp_iff, implies_true, and_true]
  refine ⟨⟨?nrzI, ?ami, ?dm⟩, ?pt, ?nrzL, ?man⟩
  case nrzI =>
    have h := (validated_nrzI hmax pol).level_after_steps hready hj
    rwa [levelAfter_of_inverts_ones rfl] at h
  case ami =>
    have h := (validated_bipolarAmi hmax pol).level_after_steps hready hj
    rwa [levelAfter_of_inverts_ones rfl] at h
  case dm =>
    have h := (validated_differentialManchester hmax pol).level_after_steps hready hj
    rwa [levelAfter_of_inverts_ones rfl] at h
  case pt =>
    have h := (validated_pseudoternary hmax pol).level_after_steps hready hj
    rwa [levelAfter_pseudoternary] at h
  case nrzL => exact (validated_nrzL hmax pv pol).level_after_steps hready hj
  case man => exact (validated_manchester hmax pv pol).level_after_steps hready hj

end Sys2Proof.Machine
end

section
/-! PROOFS. The machine's answer to a request is the pure function of the request, SPB and MAX_BITS (40_dispatch.md R73,
R82; 60_exceptions.md R155, R157). -/

namespace Sys2Proof.Machine

section
variable {p : Params} {spb : Nat} {i : Instr} (hspb : samplesPerBit p = some spb)
include hspb

theorem pureAnswer_unrecognised (hd : i.decoded = .unrecognised) :
    pureAnswer p i = .ok (.err .unsupportedSchemeError) := by
  simp only [pureAnswer, hspb, hd]

theorem pureAnswer_missing_polarity {sch : Scheme} (hd : i.decoded = .scheme sch none)
    (hreq : sch.requiresPol = true) : pureAnswer p i = .ok (.err .configError) := by
  simp only [pureAnswer, hspb, hd, hreq, Option.isNone_none, Bool.and_self, if_true]

theorem pureAnswer_fold {sch : Scheme} {level last : Option Polarity} {w : Waveform}
    (hd : i.decoded = .scheme sch level) (hpol : sch.requiresPol = true → level.isSome = true)
    (hmax : withinMaxBits p i.bits.length = true) (hfold : encodeFold sch spb level i.bits = some (last, w)) :
    pureAnswer p i = .ok (.ok w) := by
  simp only [pureAnswer, hspb, hd, no_missing_polarity hpol, hmax, seed_decoded hd, hfold, Bool.false_eq_true,
    if_true, if_false]

theorem pureAnswer_too_long {sch : Scheme} {level : Option Polarity} (hd : i.decoded = .scheme sch level)
    (hpol : sch.requiresPol = true → level.isSome = true) (hmax : withinMaxBits p i.bits.length = false) :
    pureAnswer p i = .error .tooManyBits := by
  simp only [pureAnswer, hspb, hd, no_missing_polarity hpol, hmax, Bool.false_eq_true, if_false]

end

/-- On a ready block a request is answered as the pure function says, or it is one that passes the checks of scheme and
polarity and is too long, and both refuse it. -/
theorem answered_or_too_long {s : State} {spb : Nat} (hready : Ready s spb) (i : Instr) :
    (∃ r, pureAnswer s.params i = .ok r ∧ Answers s i r) ∨
      ∃ sch level, i.decoded = .scheme sch level ∧ (sch.requiresPol = true → level.isSome = true) ∧
        withinMaxBits s.params i.bits.length = false ∧ pureAnswer s.params i = .error .tooManyBits ∧
        exec i s = .refused .tooManyBits := by
  have ⟨hidle, hspb, hquiet⟩ := hready
  obtain hd | ⟨sch, hd, hreq⟩ | ⟨sch, level, hd, hpol, hmax | hmax⟩ :=
    validation_cases s.params i.decoded i.bits.length
  · exact .inl ⟨_, pureAnswer_unrecognised hspb hd, answers_of_raiseError hquiet (exec_unrecognised hidle hspb hd)⟩
  · exact .inl ⟨_, pureAnswer_missing_polarity hspb hd hreq,
      answers_of_raiseError hquiet (exec_missing_polarity hidle hspb hd hreq)⟩
  · have hv : Validated s i sch level := ⟨hd, hpol, hmax⟩
    obtain ⟨last, w, hfold⟩ := hv.fold_exists spb i.bits
    exact .inl ⟨_, pureAnswer_fold hspb hd hpol hmax hfold, hv.answers hready hfold⟩
  · exact .inr ⟨sch, level, hd, hpol, hmax, pureAnswer_too_long hspb hd hpol hmax,
      exec_too_long hidle hspb hd hpol hmax⟩

/-- Settles O55: the pure function has one value, and the machine does what that value says. -/
theorem requestsAreAnsweredByThePureFunction : Obligations.RequestsAreAnsweredByThePureFunction := by
  intro s spb i hready
  obtain ⟨r, hpure, hans⟩ | ⟨_, _, -, -, -, hpure, href⟩ := answered_or_too_long hready i
  · refine ⟨fun r' hr' => ?_, fun e' he' => ?_⟩
    · cases hpure.symm.trans hr'
      exact hans
    · cases hpure.symm.trans he'
  · refine ⟨fun r' hr' => ?_, fun e' he' => ?_⟩
    · cases hpure.symm.trans hr'
    · cases hpure.symm.trans he'
      exact href

/-- The host receives one response: the step is a function, and the outbox shows what was delivered. -/
theorem Answers.unique {s : State} {i : Instr} {r r' : Response} (h : Answers s i r) (h' : Answers s i r') :
    r' = r := by
  obtain ⟨t, hexec, hrun⟩ := h
  obtain ⟨t', hexec', hrun'⟩ := h'
  cases hexec.symm.trans hexec'
  have hsame : s.answered r' = s.answered r := Host.Outcome.next.inj (hrun'.symm.trans hrun)
  have hout : s.outbox ++ [r'] = s.outbox ++ [r] := congrArg State.outbox hsame
  exact List.singleton_inj.mp (List.append_cancel_left hout)

/-- Settles O56: such a request is not one that is too long, so it is answered, and answers are unique. -/
theorem everyAdmittedRequestHasExactlyOneResponse : Obligations.EveryAdmittedRequestHasExactlyOneResponse := by
  intro s spb i hready hadmitted
  suffices hans : ∃ r, Answers s i r by
    obtain ⟨r, hr⟩ := hans
    exact ⟨r, hr, fun _ => hr.unique⟩
  obtain ⟨r, -, hans⟩ | ⟨sch, level, hd, hpol, hmax, -, -⟩ := answered_or_too_long hready i
  · exact ⟨r, hans⟩
  · obtain hd' | ⟨_, hd', hreq⟩ | hmax' := hadmitted
    · cases hd.symm.trans hd'
    · cases hd.symm.trans hd'
      cases hpol hreq
    · cases hmax.symm.trans hmax'

/-- The pure function reads of the parameters SPB and MAX_BITS alone. -/
theorem pureAnswer_congr {p p' : Params} (hspb : samplesPerBit p = samplesPerBit p') (hmax : p.maxBits = p'.maxBits)
    (i : Instr) : pureAnswer p i = pureAnswer p' i := by
  have hwithin : withinMaxBits p = withinMaxBits p' := funext fun n => by rw [withinMaxBits, withinMaxBits, hmax]
  rw [pureAnswer, pureAnswer, hspb, hwithin]

/-- Settles O57: both blocks answer as the pure function says, and it has the same value for both. -/
theorem responsesDependOnTheRequestAlone : Obligations.ResponsesDependOnTheRequestAlone := by
  intro s s' spb i r hready hready' hmax hans
  have hsame := pureAnswer_congr (hready.spb.trans hready'.spb.symm) hmax i
  obtain ⟨answered, -⟩ := requestsAreAnsweredByThePureFunction s' spb i hready'
  obtain ⟨r₀, hpure, hans₀⟩ | ⟨_, _, -, -, -, -, href⟩ := answered_or_too_long hready i
  · rw [hans₀.unique hans]
    exact answered r₀ (hsame.symm.trans hpure)
  · obtain ⟨t, hexec, -⟩ := hans
    cases hexec.symm.trans href

end Sys2Proof.Machine
end

section
/-! PROOFS. A program of requests: the host's ticks are the block's own transitions, so each request is answered before
the next arrives (70_reset_and_hazards.md R177; 95_test_vectors.md §6). -/

namespace Sys2Proof.Machine

/-- The block's own transition neither reads nor writes the inbox. -/
theorem advance_with_inbox {s t : State} (h : advance s = .next t) (inbox : List HostEvent) :
    advance { s with inbox := inbox } = .next { t with inbox := inbox } := by
  obtain ⟨hidle, rfl⟩ | ⟨hrun, b, spb, sch, level, blk, hbit, hspb, hsch, hrule, rfl⟩ | ⟨hrun, hend, rfl⟩ |
    ⟨hp, r, hres, rfl⟩ := advance_next h
  · exact advance_of_idle (s := { t with inbox := inbox }) hidle
  · exact (advance_of_run (s := { s with inbox := inbox }) hrun hbit).trans (foldStep_eq hspb hsch hrule)
  · exact advance_of_run_end (s := { s with inbox := inbox }) hrun hend
  · exact advance_of_done_or_err (s := { s with inbox := inbox }) hp hres

theorem advance_next_inbox {s t : State} (h : advance s = .next t) : t.inbox = s.inbox := by
  obtain ⟨-, rfl⟩ | ⟨-, _, _, _, _, _, -, -, -, -, rfl⟩ | ⟨-, -, rfl⟩ | ⟨-, _, -, rfl⟩ := advance_next h <;> rfl

/-- An arrival neither reads nor writes the inbox. -/
theorem exec_with_inbox {i : Instr} {s t : State} (h : exec i s = .next t) (inbox : List HostEvent) :
    exec i { s with inbox := inbox } = .next { t with inbox := inbox } := by
  rw [exec_eq_acceptRequest] at h
  obtain ⟨hidle, ⟨spb, hspb⟩, ⟨hd, rfl⟩ | ⟨sch, hd, hreq, rfl⟩ | ⟨sch, pol, hd, hpol, hmax, rfl⟩⟩ :=
    acceptRequest_next h
  · exact exec_unrecognised (s := { s with inbox := inbox }) hidle hspb hd
  · exact exec_missing_polarity (s := { s with inbox := inbox }) hidle hspb hd hreq
  · exact exec_accepts (s := { s with inbox := inbox }) hidle hspb hd hpol hmax

theorem exec_next_inbox {i : Instr} {s t : State} (h : exec i s = .next t) : t.inbox = s.inbox := by
  rw [exec_eq_acceptRequest] at h
  obtain ⟨-, -, ⟨-, rfl⟩ | ⟨_, -, -, rfl⟩ | ⟨_, _, -, -, -, rfl⟩⟩ := acceptRequest_next h <;> rfl

/-- `k` ticks are `k` steps of a block whose host only waits. -/
theorem run_ticks {s t : State} {k : Nat} (hquiet : s.inbox = [])
    (h : Host.Core.run Sys2Proof.core k s = .next t) (rest : List HostEvent) :
    Host.Core.run Sys2Proof.core k { s with inbox := List.replicate k .tick ++ rest } =
      .next { t with inbox := rest } := by
  induction k generalizing s with
  | zero => cases h; rfl
  | succ k ih =>
    obtain ⟨u, hstep, hrest⟩ := run_succ_eq_next h
    rw [step_of_quiet hquiet] at hstep
    have htick : step { s with inbox := List.replicate (k + 1) .tick ++ rest } =
        .next { u with inbox := List.replicate k .tick ++ rest } :=
      (step_of_tick rfl).trans (advance_with_inbox hstep _)
    rw [run_succ htick]
    exact ih ((advance_next_inbox hstep).trans hquiet) hrest

/-- A request, issued in IDLE and followed by one tick per bit and two more, is answered before the next event. -/
theorem run_request {s : State} {r : Request} {a : Response} {rest : List HostEvent}
    (hinbox : s.inbox = .request r :: (List.replicate (r.bits.length + 2) .tick ++ rest))
    (hans : Answers { s with inbox := [] } (decodeRequest r) a) :
    Host.Core.run Sys2Proof.core (r.bits.length + 2 + 1) s = .next { s.answered a with inbox := rest } := by
  obtain ⟨t, hexec, hrun⟩ := hans
  have harrival : step s = .next { t with inbox := List.replicate (r.bits.length + 2) .tick ++ rest } :=
    (step_of_request hinbox).trans (exec_with_inbox hexec _)
  have hbits : (decodeRequest r).bits = r.bits := bits_decodeCfg r.cfg r.bits
  rw [hbits] at hrun
  rw [run_succ harrival]
  exact run_ticks (exec_next_inbox hexec) hrun rest

/-- In IDLE the phase invariant has every element at its reset value already, so a response changes the outbox alone. -/
theorem PhaseInv.answered_of_idle {s : State} (h : PhaseInv s) (hidle : s.phase = .idle) (r : Response) :
    s.answered r = { s with outbox := s.outbox ++ [r] } := by
  simp only [PhaseInv, hidle] at h
  obtain ⟨hsch, hlevel, hbits, hcursor, hwave, hres⟩ := h
  simp only [State.answered, State.endRequest, hidle, hsch, hlevel, hbits, hcursor, hwave, hres]

/-- A list of requests has answers when the first has one and the rest have theirs. -/
theorem pureAnswers_cons_eq_ok {p : Params} {r : Request} {rs : List Request} {answers : List Response}
    (h : pureAnswers p (r :: rs) = .ok answers) :
    ∃ a as, pureAnswer p (decodeRequest r) = .ok a ∧ pureAnswers p rs = .ok as ∧ answers = a :: as := by
  simp only [pureAnswers] at h
  split at h
  · cases h
  · rename_i a ha
    split at h
    · cases h
    · rename_i as has
      cases h
      exact ⟨a, as, ha, has, rfl⟩

/-- Where a request has a pure answer, SPB has a value. -/
theorem samplesPerBit_of_pureAnswer {p : Params} {i : Instr} {r : Response} (h : pureAnswer p i = .ok r) :
    ∃ spb, samplesPerBit p = some spb := by
  cases hspb : samplesPerBit p with
  | none => simp [pureAnswer, hspb] at h
  | some spb => exact ⟨spb, rfl⟩

/-- Settles O58, by induction on the requests: each is answered before the next arrives, and leaves the block in IDLE
as it was. -/
theorem programsAreAnsweredInOrder : Obligations.ProgramsAreAnsweredInOrder := by
  intro s requests
  induction requests generalizing s with
  | nil =>
    intro answers _ _ hpure hinbox
    cases hpure
    have hsame : { s with inbox := [], outbox := s.outbox ++ [] } = s := by
      cases s
      simp_all [programEvents]
    rw [hsame]
    rfl
  | cons r rs ih =>
    intro answers hinv hidle hpure hinbox
    obtain ⟨a, as, ha, has, rfl⟩ := pureAnswers_cons_eq_ok hpure
    obtain ⟨spb, hspb⟩ := samplesPerBit_of_pureAnswer ha
    have hready : Ready { s with inbox := [] } spb := ⟨hidle, hspb, rfl⟩
    obtain ⟨answered, -⟩ := requestsAreAnsweredByThePureFunction _ spb (decodeRequest r) hready
    have hfirst := run_request hinbox (answered a ha)
    have hrest := ih { s.answered a with inbox := programEvents rs } as (phaseInv_answered s a) rfl has rfl
    have hlength : (programEvents (r :: rs)).length = r.bits.length + 2 + 1 + (programEvents rs).length := by
      simp only [programEvents, List.length_cons, List.length_append, List.length_replicate]
      omega
    rw [hlength, run_add hfirst, hrest, hinv.answered_of_idle hidle a]
    simp only [List.append_assoc, List.singleton_append]

end Sys2Proof.Machine
end

section
/-! PROOFS. The samples of a waveform: block `i` is what the scheme's rule emits for bit `i` at the level that the bits
before it leave (40_dispatch.md R73; 41_nrz.md, 42_ami_family.md, 43_manchester.md). -/

namespace Sys2Proof.Machine

theorem expand_getElem? {v : Sample} {k j : Nat} (hj : j < k) : (expand v k)[j]? = some v :=
  List.getElem?_replicate_of_lt hj

/-- The first half of a block of halves holds one sample, and the second half the other. -/
theorem expandHalves_getElem? {v1 v2 : Sample} {spb j : Nat} (hj : j < 2 * (spb / 2)) :
    (expandHalves v1 v2 spb)[j]? = some (if j < spb / 2 then v1 else v2) := by
  unfold expandHalves half
  split_ifs with hfirst
  · rw [List.getElem?_append_left (by rwa [expand_length]), expand_getElem? hfirst]
  · rw [List.getElem?_append_right (by rw [expand_length]; omega), expand_length, expand_getElem? (by omega)]

section
variable {sch : Scheme} {spb : Nat} {level last : Option Polarity} {bits : List Bit} {w : Waveform} {i : Nat} {b : Bit}

/-- The block of bit `i` stands in the waveform at `i` block lengths, and its step leads to the level after bit `i`. -/
theorem encodeFold_block (h : encodeFold sch spb level bits = some (last, w)) (hbit : bits[i]? = some b) :
    ∃ blk, schemeStep sch spb (levelAfter sch level (bits.take i)) b =
        some (levelAfter sch level (bits.take (i + 1)), blk) ∧
      ∀ j < blocklen sch spb, w[i * blocklen sch spb + j]? = blk[j]? := by
  rw [← List.take_append_drop (i + 1) bits] at h
  obtain ⟨next, _, w₂, hpre, -, rfl⟩ := encodeFold_append_eq_some.mp h
  have hnext := encodeFold_levelAfter hpre
  obtain ⟨mid, w₀, blk, hbefore, hstep, rfl⟩ := encodeFold_take_succ hbit hpre
  rw [encodeFold_levelAfter hbefore, hnext] at hstep
  refine ⟨blk, hstep, fun j hj => ?_⟩
  obtain ⟨hi, -⟩ := List.getElem?_eq_some_iff.mp hbit
  have hstart : w₀.length = i * blocklen sch spb := by
    rw [encodeFold_length hbefore, List.length_take_of_le hi.le]
  rw [← hstart, List.append_assoc, List.getElem?_append_right (Nat.le_add_right _ _), Nat.add_sub_cancel_left,
    List.getElem?_append_left (by rwa [schemeStep_length hstep])]

end

/-- The level after the first `i` bits, where a 1 inverts it. -/
theorem levelAfter_take_of_inverts_ones {sch : Scheme} (h : invertsLevel sch = fun b => b) (p : Polarity)
    (bits : List Bit) (i : Nat) :
    levelAfter sch (some p) (bits.take i) = some (invertTimes p (countBefore true bits i)) :=
  levelAfter_of_inverts_ones h p (bits.take i)

section
variable {spb : Nat} {p : Polarity} {level last : Option Polarity} {bits : List Bit} {w : Waveform} {i j : Nat}
  {b : Bit} (hbit : bits[i]? = some b)
include hbit

theorem nrzL_samples (h : encodeFold .nrzL spb level bits = some (last, w)) (hj : j < spb) :
    w[i * spb + j]? = some (if b then Sample.pos else Sample.neg) := by
  obtain ⟨blk, hstep, hw⟩ := encodeFold_block h hbit
  obtain ⟨-, rfl⟩ := Prod.mk.inj (Option.some.inj hstep)
  exact (hw j hj).trans (expand_getElem? hj)

/-- The block of NRZ-I is at the level after its bit. -/
theorem nrzI_samples (h : encodeFold .nrzI spb (some p) bits = some (last, w)) (hj : j < spb) :
    w[i * spb + j]? = some (sampleOf (invertTimes p (countBefore true bits (i + 1)))) := by
  obtain ⟨blk, hstep, hw⟩ := encodeFold_block h hbit
  rw [levelAfter_take_of_inverts_ones rfl, levelAfter_take_of_inverts_ones rfl, schemeStep_nrzI] at hstep
  obtain ⟨hlevel, rfl⟩ := Prod.mk.inj (Option.some.inj hstep)
  rw [← Option.some.inj hlevel]
  exact (hw j hj).trans (expand_getElem? hj)

/-- A mark of AMI is at the level after its bit. -/
theorem bipolarAmi_samples (h : encodeFold .bipolarAmi spb (some p) bits = some (last, w)) (hj : j < spb) :
    w[i * spb + j]? =
      some (if b then sampleOf (invertTimes p (countBefore true bits (i + 1))) else .zero) := by
  obtain ⟨blk, hstep, hw⟩ := encodeFold_block h hbit
  rw [levelAfter_take_of_inverts_ones rfl, levelAfter_take_of_inverts_ones rfl, schemeStep_bipolarAmi] at hstep
  obtain ⟨hlevel, rfl⟩ := Prod.mk.inj (Option.some.inj hstep)
  rw [← Option.some.inj hlevel]
  cases b <;> exact (hw j hj).trans (expand_getElem? hj)

/-- A mark of Pseudoternary is at the level after its bit. -/
theorem pseudoternary_samples (h : encodeFold .pseudoternary spb (some p) bits = some (last, w)) (hj : j < spb) :
    w[i * spb + j]? =
      some (if b then .zero else sampleOf (invertTimes p (countBefore false bits (i + 1)))) := by
  obtain ⟨blk, hstep, hw⟩ := encodeFold_block h hbit
  rw [levelAfter_pseudoternary, levelAfter_pseudoternary, schemeStep_pseudoternary] at hstep
  obtain ⟨hlevel, rfl⟩ := Prod.mk.inj (Option.some.inj hstep)
  rw [countBefore, ← Option.some.inj hlevel]
  cases b <;> exact (hw j hj).trans (expand_getElem? hj)

/-- A block of Manchester is the level of its bit, then the opposite. -/
theorem manchester_samples (h : encodeFold .manchester spb level bits = some (last, w)) (hj : j < 2 * (spb / 2)) :
    w[i * (2 * (spb / 2)) + j]? = some (if j < spb / 2 then (if b then Sample.pos else Sample.neg) else
      negSample (if b then Sample.pos else Sample.neg)) := by
  obtain ⟨blk, hstep, hw⟩ := encodeFold_block h hbit
  obtain ⟨-, rfl⟩ := Prod.mk.inj (Option.some.inj hstep)
  cases b <;> exact (hw j hj).trans (expandHalves_getElem? hj)

/-- The first half of bit `i` of Differential Manchester (43_manchester.md R141): the line level on a 1 bit, its
opposite on a 0 bit. -/
def dmFirstHalf (p : Polarity) (bits : List Bit) (i : Nat) (b : Bit) : Polarity :=
  if b then invertTimes p (countBefore true bits i) else negPolarity (invertTimes p (countBefore true bits i))

/-- A block of Differential Manchester is its first half's level, then the opposite. -/
theorem differentialManchester_samples (h : encodeFold .differentialManchester spb (some p) bits = some (last, w))
    (hj : j < 2 * (spb / 2)) :
    w[i * (2 * (spb / 2)) + j]? = some (if j < spb / 2 then sampleOf (dmFirstHalf p bits i b) else
      negSample (sampleOf (dmFirstHalf p bits i b))) := by
  obtain ⟨blk, hstep, hw⟩ := encodeFold_block h hbit
  rw [levelAfter_take_of_inverts_ones rfl, schemeStep_differentialManchester] at hstep
  obtain ⟨-, rfl⟩ := Prod.mk.inj (Option.some.inj hstep)
  rw [← sampleOf_negPolarity]
  exact (hw j hj).trans (expandHalves_getElem? hj)

end

/-- A validated request is answered with the waveform of its fold, one block per bit. -/
theorem Validated.answers_fold {s : State} {spb : Nat} {sch : Scheme} {level : Option Polarity} {i : Instr}
    (hv : Validated s i sch level) (hready : Ready s spb) :
    ∃ last w, encodeFold sch spb level i.bits = some (last, w) ∧ Answers s i (.ok w) ∧
      w.length = i.bits.length * blocklen sch spb := by
  obtain ⟨last, w, hfold⟩ := hv.fold_exists spb i.bits
  exact ⟨last, w, hfold, hv.answers hready hfold, encodeFold_length hfold⟩

/-- Settles O34: one block per bit, at the level of the bit. -/
theorem nrzLRequestAnswersItsBits : Obligations.NrzLRequestAnswersItsBits := by
  intro s spb pv pol bits hready hmax
  obtain ⟨last, w, hfold, hans, hlen⟩ := (validated_nrzL hmax pv pol).answers_fold hready
  exact ⟨w, hans, hlen, fun i j b hbit hj => nrzL_samples hbit hfold hj⟩

/-- Settles O35: one block per bit, at the level after the bit. -/
theorem nrzIRequestAnswersItsTransitions : Obligations.NrzIRequestAnswersItsTransitions := by
  intro s spb pol bits hready hmax
  obtain ⟨last, w, hfold, hans, hlen⟩ := (validated_nrzI hmax pol).answers_fold hready
  exact ⟨w, hans, hlen, fun i j hi hj => nrzI_samples (List.getElem?_eq_getElem hi) hfold hj⟩

/-- Settles O36: one block per bit, a mark at the level after it. -/
theorem bipolarAmiRequestAnswersItsMarks : Obligations.BipolarAmiRequestAnswersItsMarks := by
  intro s spb pol bits hready hmax
  obtain ⟨last, w, hfold, hans, hlen⟩ := (validated_bipolarAmi hmax pol).answers_fold hready
  exact ⟨w, hans, hlen, fun i j b hbit hj => bipolarAmi_samples hbit hfold hj⟩

/-- Settles O37: one block per bit, a mark at the level after it. -/
theorem pseudoternaryRequestAnswersItsMarks : Obligations.PseudoternaryRequestAnswersItsMarks := by
  intro s spb pol bits hready hmax
  obtain ⟨last, w, hfold, hans, hlen⟩ := (validated_pseudoternary hmax pol).answers_fold hready
  exact ⟨w, hans, hlen, fun i j b hbit hj => pseudoternary_samples hbit hfold hj⟩

/-- A block of two halves, sample by sample in each half. -/
theorem halves_of_block {w : Waveform} {o H : Nat} {v1 v2 : Sample}
    (hw : ∀ k < 2 * H, w[o + k]? = some (if k < H then v1 else v2)) {j : Nat} (hj : j < H) :
    w[o + j]? = some v1 ∧ w[o + H + j]? = some v2 := by
  have hfirst := hw j (by omega)
  have hsecond := hw (H + j) (by omega)
  rw [if_pos hj] at hfirst
  rw [if_neg (by omega), ← Nat.add_assoc] at hsecond
  exact ⟨hfirst, hsecond⟩

/-- Settles O38: the two halves of each block. -/
theorem manchesterRequestAnswersItsHalves : Obligations.ManchesterRequestAnswersItsHalves := by
  intro s spb pv pol bits hready hmax
  obtain ⟨last, w, hfold, hans, hlen⟩ := (validated_manchester hmax pv pol).answers_fold hready
  refine ⟨w, hans, hlen, fun i j b hbit hj => ?_⟩
  have hhalves := halves_of_block (fun k hk => manchester_samples hbit hfold hk) hj
  cases b <;> exact hhalves

/-- Settles O39: the two halves of each block. -/
theorem differentialManchesterRequestAnswersItsHalves :
    Obligations.DifferentialManchesterRequestAnswersItsHalves := by
  intro s spb pol bits hready hmax
  obtain ⟨last, w, hfold, hans, hlen⟩ := (validated_differentialManchester hmax pol).answers_fold hready
  refine ⟨w, hans, hlen, fun i j b hbit hj => ?_⟩
  have hhalves := halves_of_block (fun k hk => differentialManchester_samples hbit hfold hk) hj
  rw [← sampleOf_negPolarity] at hhalves
  cases b with
  | true => exact hhalves
  | false =>
    rw [dmFirstHalf, if_neg Bool.false_ne_true, negPolarity_negPolarity] at hhalves
    exact hhalves

end Sys2Proof.Machine
end

section
/-! PROOFS. Two requests compared: the complemented seed, the complemented bits, and a request split in two
(41_nrz.md R99, 43_manchester.md R145 and R146, 42_ami_family.md R126, 70_reset_and_hazards.md R176). -/

namespace Sys2Proof.Machine

/-- Where the rule of one scheme follows that of another through a map of levels, of bits and of samples, so does its
fold. -/
theorem encodeFold_map {sch sch' : Scheme} {spb : Nat} {f : Option Polarity → Option Polarity} {g : Sample → Sample}
    {h : Bit → Bit}
    (hstep : ∀ level b next blk, schemeStep sch spb level b = some (next, blk) →
      schemeStep sch' spb (f level) (h b) = some (f next, blk.map g))
    {level last : Option Polarity} {bits : List Bit} {w : Waveform}
    (hfold : encodeFold sch spb level bits = some (last, w)) :
    encodeFold sch' spb (f level) (bits.map h) = some (f last, w.map g) := by
  induction bits generalizing level w with
  | nil =>
    obtain ⟨rfl, rfl⟩ := encodeFold_nil_eq_some.mp hfold
    rfl
  | cons b bs ih =>
    obtain ⟨level', blk, w', hb, hrest, rfl⟩ := encodeFold_cons_eq_some.mp hfold
    exact encodeFold_cons_eq_some.mpr ⟨f level', blk.map g, w'.map g, hstep _ _ _ _ hb, ih hrest, List.map_append⟩

@[simp] theorem expandHalves_map_negSample (v1 v2 : Sample) (spb : Nat) :
    (expandHalves v1 v2 spb).map negSample = expandHalves (negSample v1) (negSample v2) spb := by
  simp [expandHalves]

/-- From the opposite level, NRZ-I emits the negated block and ends at the opposite level. -/
theorem schemeStep_nrzI_opposite {spb : Nat} {level next : Option Polarity} {b : Bit} {blk : Waveform}
    (h : schemeStep .nrzI spb level b = some (next, blk)) :
    schemeStep .nrzI spb (level.map negPolarity) b = some (next.map negPolarity, blk.map negSample) := by
  obtain ⟨p, rfl, rfl, rfl⟩ := onLevel_eq_some h
  cases b <;> simp [stepNrzI]

/-- From the opposite level, Differential Manchester emits the negated block and ends at the opposite level. -/
theorem schemeStep_differentialManchester_opposite {spb : Nat} {level next : Option Polarity} {b : Bit}
    {blk : Waveform} (h : schemeStep .differentialManchester spb level b = some (next, blk)) :
    schemeStep .differentialManchester spb (level.map negPolarity) b =
      some (next.map negPolarity, blk.map negSample) := by
  obtain ⟨p, rfl, rfl, rfl⟩ := onLevel_eq_some h
  cases b <;> simp [stepDifferentialManchester]

/-- Where the opposite level negates every block, the opposite seed negates the waveform. -/
theorem encodeFold_opposite {sch : Scheme} {spb : Nat}
    (hstep : ∀ level b next blk, schemeStep sch spb level b = some (next, blk) →
      schemeStep sch spb (level.map negPolarity) b = some (next.map negPolarity, blk.map negSample))
    {level last : Option Polarity} {bits : List Bit} {w : Waveform}
    (hfold : encodeFold sch spb level bits = some (last, w)) :
    encodeFold sch spb (level.map negPolarity) bits = some (last.map negPolarity, w.map negSample) := by
  have h := encodeFold_map (h := id) hstep hfold
  rwa [List.map_id] at h

/-- Settles O40: the seed Low is the opposite of High. -/
theorem complementingTheSeedNegatesTheWaveform : Obligations.ComplementingTheSeedNegatesTheWaveform := by
  intro s spb bits hready hmax
  refine ⟨?nrzI, ?dm⟩
  case nrzI =>
    obtain ⟨_, w, hfold, hans, -⟩ := (validated_nrzI hmax true).answers_fold hready
    have hlow := encodeFold_opposite (fun _ _ _ _ => schemeStep_nrzI_opposite) hfold
    exact ⟨w, hans, (validated_nrzI hmax false).answers hready hlow⟩
  case dm =>
    obtain ⟨_, w, hfold, hans, -⟩ := (validated_differentialManchester hmax true).answers_fold hready
    have hlow := encodeFold_opposite (fun _ _ _ _ => schemeStep_differentialManchester_opposite) hfold
    exact ⟨w, hans, (validated_differentialManchester hmax false).answers hready hlow⟩

/-- The AMI step on the complemented bit is the Pseudoternary step. -/
theorem schemeStep_bipolarAmi_not {spb : Nat} {level next : Option Polarity} {b : Bit} {blk : Waveform}
    (h : schemeStep .pseudoternary spb level b = some (next, blk)) :
    schemeStep .bipolarAmi spb level (!b) = some (next, blk) := by
  obtain ⟨p, rfl, rfl, rfl⟩ := onLevel_eq_some h
  cases b <;> rfl

/-- Settles O42: the fold of AMI over the complemented bits follows that of Pseudoternary step by step. -/
theorem pseudoternaryIsAmiOfTheComplement : Obligations.PseudoternaryIsAmiOfTheComplement := by
  intro s spb pol bits hready hmax
  obtain ⟨last, w, hfold, hans, -⟩ := (validated_pseudoternary hmax pol).answers_fold hready
  have hami : encodeFold .bipolarAmi spb (some (polOf pol)) (bits.map fun b => !b) = some (last, w) := by
    have h := encodeFold_map (sch' := .bipolarAmi) (f := id) (g := id) (h := fun b => !b)
      (fun _ _ _ blk hb => by rw [List.map_id]; exact schemeStep_bipolarAmi_not hb) hfold
    rwa [List.map_id] at h
  have hmax' : withinMaxBits s.params (bits.map fun b => !b).length = true := by rwa [List.length_map]
  exact ⟨w, hans, (validated_bipolarAmi hmax' pol).answers hready hami⟩

theorem polOf_not (pol : Bool) : polOf (!pol) = negPolarity (polOf pol) := by cases pol <;> rfl

theorem countBefore_succ {bits : List Bit} {i : Nat} {b : Bit} (hbit : bits[i]? = some b) (v : Bit) :
    countBefore v bits (i + 1) = countBefore v bits i + if b = v then 1 else 0 := by
  rw [countBefore, take_succ_of_getElem? hbit, List.count_append, List.count_singleton]
  simp only [countBefore, beq_iff_eq]

/-- The level of a Differential Manchester first half is that of NRZ-I after the bit, under the opposite seed. -/
theorem dmFirstHalf_eq_nrzI {bits : List Bit} {i : Nat} {b : Bit} (hbit : bits[i]? = some b) (p : Polarity) :
    dmFirstHalf p bits i b = invertTimes (negPolarity p) (countBefore true bits (i + 1)) := by
  rw [invertTimes_negPolarity, countBefore_succ hbit]
  cases b with
  | true => simp [dmFirstHalf, invertTimes_succ]
  | false => simp [dmFirstHalf]

/-- Settles O45: sample by sample, from the samples of the two schemes. -/
theorem differentialManchesterFirstHalvesAreNrzI : Obligations.DifferentialManchesterFirstHalvesAreNrzI := by
  intro s spb pol bits hready hmax
  obtain ⟨_, wd, hfoldD, hansD, -⟩ := (validated_differentialManchester hmax pol).answers_fold hready
  obtain ⟨_, wn, hfoldN, hansN, -⟩ := (validated_nrzI hmax (!pol)).answers_fold hready
  refine ⟨wd, wn, hansD, hansN, fun i j hi hj => ?_⟩
  have hbit : bits[i]? = some bits[i] := List.getElem?_eq_getElem hi
  rw [differentialManchester_samples hbit hfoldD (by omega), nrzI_samples hbit hfoldN (by omega), if_pos hj,
    dmFirstHalf_eq_nrzI hbit, polOf_not]

/-! ## A request split in two -/

theorem withinMaxBits_mono {p : Params} {m n : Nat} (hmn : m ≤ n) (h : withinMaxBits p n = true) :
    withinMaxBits p m = true := by
  cases hp : p.maxBits with
  | none => simp only [withinMaxBits, hp]
  | some k =>
    simp only [withinMaxBits, hp, decide_eq_true_eq] at h ⊢
    exact hmn.trans h

/-- A request is split where its second part is seeded with the level after the first: the waveforms are those of the
parts, in order. -/
theorem Validated.answers_append {s : State} {spb : Nat} {sch : Scheme} {level level₂ : Option Polarity}
    {i₁ i₂ i : Instr} (hready : Ready s spb) (hv₁ : Validated s i₁ sch level) (hv₂ : Validated s i₂ sch level₂)
    (hv : Validated s i sch level) (hbits : i.bits = i₁.bits ++ i₂.bits)
    (hlevel : levelAfter sch level i₁.bits = level₂) :
    ∃ w₁ w₂, Answers s i₁ (.ok w₁) ∧ Answers s i₂ (.ok w₂) ∧ Answers s i (.ok (w₁ ++ w₂)) := by
  obtain ⟨mid, w₁, hfold₁, hans₁, -⟩ := hv₁.answers_fold hready
  obtain ⟨last, w₂, hfold₂, hans₂, -⟩ := hv₂.answers_fold hready
  rw [← hlevel, ← encodeFold_levelAfter hfold₁] at hfold₂
  have hfold : encodeFold sch spb level i.bits = some (last, w₁ ++ w₂) := by
    rw [hbits]
    exact encodeFold_append_eq_some.mpr ⟨mid, w₁, w₂, hfold₁, hfold₂, rfl⟩
  exact ⟨w₁, w₂, hans₁, hans₂, hv.answers hready hfold⟩

/-- Settles O46: a stateless scheme has no level to seed; for a stateful one, POL of the second part is the level after
the first. -/
theorem requestsSplitAtTheFinalLevel : Obligations.RequestsSplitAtTheFinalLevel := by
  intro s spb pv pol pol' bits₁ bits₂ hready hmax
  have hmax₁ : withinMaxBits s.params bits₁.length = true :=
    withinMaxBits_mono (by rw [List.length_append]; omega) hmax
  have hmax₂ : withinMaxBits s.params bits₂.length = true :=
    withinMaxBits_mono (by rw [List.length_append]; omega) hmax
  simp only [List.forall_mem_cons, List.not_mem_nil, false_imp_iff, implies_true, and_true]
  refine ⟨⟨?nrzL, ?man⟩, fun hlevel => ?ones, fun hlevel => ?zeros⟩
  case nrzL =>
    exact Validated.answers_append hready (validated_nrzL hmax₁ pv pol) (validated_nrzL hmax₂ pv pol)
      (validated_nrzL hmax pv pol) rfl rfl
  case man =>
    exact Validated.answers_append hready (validated_manchester hmax₁ pv pol) (validated_manchester hmax₂ pv pol)
      (validated_manchester hmax pv pol) rfl rfl
  case ones =>
    have hseed {sch : Scheme} (h : invertsLevel sch = fun b => b) :
        levelAfter sch (some (polOf pol)) bits₁ = some (polOf pol') :=
      (levelAfter_of_inverts_ones h _ _).trans (congrArg some hlevel)
    refine ⟨?_, ?_, ?_⟩
    · exact Validated.answers_append hready (validated_nrzI hmax₁ pol) (validated_nrzI hmax₂ pol')
        (validated_nrzI hmax pol) rfl (hseed rfl)
    · exact Validated.answers_append hready (validated_bipolarAmi hmax₁ pol) (validated_bipolarAmi hmax₂ pol')
        (validated_bipolarAmi hmax pol) rfl (hseed rfl)
    · exact Validated.answers_append hready (validated_differentialManchester hmax₁ pol)
        (validated_differentialManchester hmax₂ pol') (validated_differentialManchester hmax pol) rfl (hseed rfl)
  case zeros =>
    have hseed : levelAfter .pseudoternary (some (polOf pol)) bits₁ = some (polOf pol') :=
      (levelAfter_pseudoternary _ _).trans (congrArg some hlevel)
    exact Validated.answers_append hready (validated_pseudoternary hmax₁ pol) (validated_pseudoternary hmax₂ pol')
      (validated_pseudoternary hmax pol) rfl hseed

end Sys2Proof.Machine
end

section
/-! PROOFS. Marks and transitions: where neighbouring samples of a response differ (42_ami_family.md R113 and R115,
43_manchester.md R133, R143 and R144). -/

namespace Sys2Proof.Machine

/-! ## Marks -/

/-- Bits without the value `v` leave its count as it is. -/
theorem countBefore_eq_of_none {v : Bit} {bits : List Bit} {i j : Nat} (hij : i ≤ j)
    (hnone : ∀ m, i ≤ m → m < j → bits[m]? ≠ some v) : countBefore v bits j = countBefore v bits i := by
  induction j, hij using Nat.le_induction with
  | base => rfl
  | succ j hij ih =>
    have hpre := ih fun m him hmj => hnone m him (Nat.lt_succ_of_lt hmj)
    cases hbit : bits[j]? with
    | none =>
      have htake : bits.take (j + 1) = bits.take j := by rw [List.take_add_one, hbit]; exact List.append_nil _
      rw [countBefore, htake]
      exact hpre
    | some b =>
      have hb : b ≠ v := fun h => hnone j hij j.lt_succ_self (hbit.trans (congrArg some h))
      rw [countBefore_succ hbit, if_neg hb, Nat.add_zero, hpre]

section
variable {spb : Nat} {p : Polarity} {mark : Bit} {bits : List Bit} {w : Waveform}
  (hw : ∀ i, bits[i]? = some mark →
    w[i * spb]? = some (sampleOf (invertTimes p (countBefore mark bits (i + 1)))))
include hw

/-- Before the first mark nothing has inverted the seed. -/
theorem first_mark_opposite_of_seed {i : Nat} (hi : bits[i]? = some mark) (hfirst : ∀ m < i, bits[m]? ≠ some mark) :
    w[i * spb]? = some (negSample (sampleOf p)) := by
  have hnone : countBefore mark bits i = 0 := countBefore_eq_of_none i.zero_le fun m _ => hfirst m
  rw [hw i hi, countBefore_succ hi, if_pos rfl, hnone, invertTimes_succ, invertTimes_zero, sampleOf_negPolarity]

/-- From one mark to the next the level is inverted once. -/
theorem next_mark_opposite {i j : Nat} (hij : i < j) (hi : bits[i]? = some mark) (hj : bits[j]? = some mark)
    (hbetween : ∀ m, i < m → m < j → bits[m]? ≠ some mark) :
    ∃ v, v ≠ Sample.zero ∧ w[i * spb]? = some v ∧ w[j * spb]? = some (negSample v) := by
  have hsame : countBefore mark bits j = countBefore mark bits (i + 1) := countBefore_eq_of_none hij hbetween
  refine ⟨_, sampleOf_ne_zero _, hw i hi, ?_⟩
  rw [hw j hj, countBefore_succ hj, if_pos rfl, hsame, invertTimes_succ, sampleOf_negPolarity]

end

/-- Settles O41: in both schemes a mark is at the seed inverted once for each mark up to and with it. -/
theorem marksAlternateInSign : Obligations.MarksAlternateInSign := by
  intro s spb pol mark bits hready hmax
  have hpos := samplesPerBit_pos hready.spb
  cases mark with
  | true =>
    obtain ⟨last, w, hfold, hans, -⟩ := (validated_bipolarAmi hmax pol).answers_fold hready
    have hw := fun i (hi : bits[i]? = some true) => bipolarAmi_samples hi hfold hpos
    exact ⟨w, hans, fun i => first_mark_opposite_of_seed hw, fun i j => next_mark_opposite hw⟩
  | false =>
    obtain ⟨last, w, hfold, hans, -⟩ := (validated_pseudoternary hmax pol).answers_fold hready
    have hw := fun i (hi : bits[i]? = some false) => pseudoternary_samples hi hfold hpos
    exact ⟨w, hans, fun i => first_mark_opposite_of_seed hw, fun i j => next_mark_opposite hw⟩

/-! ## Transitions -/

theorem ne_negSample {v : Sample} (hv : v ≠ .zero) : v ≠ negSample v := by
  cases v with
  | zero => exact absurd rfl hv
  | neg | pos => decide

section
variable {w : Waveform} {o H : Nat} {v : Sample}
  (hw : ∀ k < 2 * H, w[o + k]? = some (if k < H then v else negSample v))
include hw

/-- A block of a sample and its opposite changes exactly at its middle. -/
theorem halves_transition (hv : v ≠ .zero) {j : Nat} (hj : j + 1 < 2 * H) :
    w[o + j]? ≠ w[o + j + 1]? ↔ j + 1 = H := by
  rw [Nat.add_assoc, hw j (by omega), hw (j + 1) hj]
  rcases Nat.lt_trichotomy (j + 1) H with hlt | heq | hgt
  · rw [if_pos (by omega), if_pos hlt]
    exact ⟨fun hne => absurd rfl hne, fun h => absurd h hlt.ne⟩
  · rw [if_pos (by omega), if_neg (by omega)]
    exact ⟨fun _ => heq, fun _ h => ne_negSample hv (Option.some.inj h)⟩
  · rw [if_neg (by omega), if_neg (by omega)]
    exact ⟨fun hne => absurd rfl hne, fun h => absurd h hgt.ne'⟩

theorem halves_first (hH : 0 < H) : w[o]? = some v := by
  have h := hw 0 (by omega)
  rwa [if_pos hH] at h

theorem halves_last (hH : 0 < H) : w[o + 2 * H - 1]? = some (negSample v) := by
  have h := hw (2 * H - 1) (by omega)
  rwa [if_neg (by omega), ← Nat.add_sub_assoc (by omega)] at h

end

theorem bit_level_ne_zero (b : Bit) : (if b then Sample.pos else Sample.neg) ≠ .zero := by cases b <;> decide

/-- The opposite of one bit's Manchester level differs from another's exactly when the bits are equal. -/
theorem negSample_bit_level_ne_iff (b b' : Bit) :
    some (negSample (if b then Sample.pos else Sample.neg)) ≠ some (if b' then Sample.pos else Sample.neg) ↔
      b = b' := by
  cases b <;> cases b' <;> decide

/-- Settles O43: each block is its bit's level and then the opposite. -/
theorem manchesterTransitionsAtMidBit : Obligations.ManchesterTransitionsAtMidBit := by
  intro s spb pv pol bits hready hspb hmax
  have hH : 0 < spb / 2 := by omega
  obtain ⟨last, w, hfold, hans, -⟩ := (validated_manchester hmax pv pol).answers_fold hready
  have hblock {i : Nat} {b : Bit} (hbit : bits[i]? = some b) :=
    fun k (hk : k < 2 * (spb / 2)) => manchester_samples hbit hfold hk
  refine ⟨w, hans, fun i j hi hj => ?inside, fun i b b' hb hb' => ?boundary⟩
  case inside => exact halves_transition (hblock (List.getElem?_eq_getElem hi)) (bit_level_ne_zero _) hj
  case boundary =>
    rw [halves_last (hblock hb) hH, halves_first (hblock hb') hH]
    exact negSample_bit_level_ne_iff b b'

/-- The second half of a block of Differential Manchester is at the level after its bit. -/
theorem negPolarity_dmFirstHalf {bits : List Bit} {i : Nat} {b : Bit} (hbit : bits[i]? = some b) (p : Polarity) :
    negPolarity (dmFirstHalf p bits i b) = invertTimes p (countBefore true bits (i + 1)) := by
  rw [dmFirstHalf_eq_nrzI hbit, invertTimes_negPolarity, negPolarity_negPolarity]

/-- A block of Differential Manchester starts away from the level before it exactly on a 0 bit. -/
theorem sampleOf_dmFirstHalf_ne_iff (p : Polarity) (bits : List Bit) (i : Nat) (b : Bit) :
    some (sampleOf (invertTimes p (countBefore true bits i))) ≠ some (sampleOf (dmFirstHalf p bits i b)) ↔
      b = false := by
  unfold dmFirstHalf
  generalize invertTimes p (countBefore true bits i) = q
  cases b <;> cases q <;> decide

/-- Settles O44: each block is its first half's level and then the opposite, which is the level that the next block
starts from. -/
theorem differentialManchesterBoundaryTransitionsAtZeros :
    Obligations.DifferentialManchesterBoundaryTransitionsAtZeros := by
  intro s spb pol bits hready hspb hmax
  have hH : 0 < spb / 2 := by omega
  obtain ⟨last, w, hfold, hans, -⟩ := (validated_differentialManchester hmax pol).answers_fold hready
  have hblock {i : Nat} {b : Bit} (hbit : bits[i]? = some b) :=
    fun k (hk : k < 2 * (spb / 2)) => differentialManchester_samples hbit hfold hk
  refine ⟨w, hans, fun i j hi hj => ?inside, fun b hb => ?seed, fun i b hb => ?boundary⟩
  case inside => exact halves_transition (hblock (List.getElem?_eq_getElem hi)) (sampleOf_ne_zero _) hj
  case seed =>
    have hfirst := halves_first (hblock hb) hH
    rw [Nat.zero_mul] at hfirst
    rw [hfirst, ne_comm]
    exact sampleOf_dmFirstHalf_ne_iff (polOf pol) bits 0 b
  case boundary =>
    obtain ⟨hlt, -⟩ := List.getElem?_eq_some_iff.mp hb
    have hbefore : bits[i]? = some bits[i] := List.getElem?_eq_getElem (Nat.lt_of_succ_lt hlt)
    rw [halves_last (hblock hbefore) hH, halves_first (hblock hb) hH, ← sampleOf_negPolarity,
      negPolarity_dmFirstHalf hbefore]
    exact sampleOf_dmFirstHalf_ne_iff (polOf pol) bits (i + 1) b

end Sys2Proof.Machine
end

section
/-! PROOFS. The text boundary: the bits of a text and of a bit string, the configuration word of a line, and the two
refusals (20_memory.md R43, 30_encoding.md R62 and R63, 60_exceptions.md R158). -/

namespace Sys2Proof.Machine

theorem charBits_length (c : Char) : (charBits c).length = 8 := by
  rw [charBits, List.length_map, List.length_range]

/-- The most significant of the 8 bits comes first. -/
theorem charBits_getElem? (c : Char) {j : Nat} (hj : j < 8) : (charBits c)[j]? = some (c.toNat.testBit (7 - j)) := by
  rw [charBits, List.getElem?_map, List.getElem?_range hj, Option.map_some]

theorem bitsOfText_ok {text : List Char} (h : ∀ c ∈ text, c.toNat ≤ 127) :
    bitsOfText text = .ok (text.flatMap charBits) := by
  induction text with
  | nil => rfl
  | cons c cs ih =>
    obtain ⟨hc, hcs⟩ := List.forall_mem_cons.mp h
    simp only [bitsOfText, textCharWf, hc, decide_true, if_true, ih hcs, List.flatMap_cons]

theorem bitsOfText_error {text : List Char} (h : ∃ c ∈ text, 127 < c.toNat) :
    bitsOfText text = .error .badTextChar := by
  induction text with
  | nil => simp at h
  | cons c cs ih =>
    by_cases hc : c.toNat ≤ 127
    · have hcs : ∃ d ∈ cs, 127 < d.toNat := by
        obtain ⟨d, hd, hbad⟩ := h
        obtain rfl | hd := List.mem_cons.mp hd
        · exact absurd hc hbad.not_ge
        · exact ⟨d, hd, hbad⟩
      simp only [bitsOfText, textCharWf, hc, decide_true, if_true, ih hcs]
    · simp only [bitsOfText, textCharWf, hc, decide_false, Bool.false_eq_true, if_false]

theorem bitsOfChars_ok {chars : List Char} (h : ∀ c ∈ chars, c = '0' ∨ c = '1') :
    bitsOfChars chars = .ok (chars.map fun c => decide (c = '1')) := by
  induction chars with
  | nil => rfl
  | cons c cs ih =>
    obtain ⟨hc, hcs⟩ := List.forall_mem_cons.mp h
    have hwf : bitCharWf c = true := by simpa [bitCharWf] using hc
    simp only [bitsOfChars, hwf, if_true, ih hcs, List.map_cons]

theorem bitsOfChars_error {chars : List Char} (h : ∃ c ∈ chars, c ≠ '0' ∧ c ≠ '1') :
    bitsOfChars chars = .error .badBitChar := by
  induction chars with
  | nil => simp at h
  | cons c cs ih =>
    cases hwf : bitCharWf c with
    | false => simp only [bitsOfChars, hwf, Bool.false_eq_true, if_false]
    | true =>
      have hcs : ∃ d ∈ cs, d ≠ '0' ∧ d ≠ '1' := by
        obtain ⟨d, hd, hbad⟩ := h
        obtain rfl | hd := List.mem_cons.mp hd
        · simp [bitCharWf, hbad] at hwf
        · exact ⟨d, hd, hbad⟩
      simp only [bitsOfChars, hwf, if_true, ih hcs]

theorem flatMap_charBits_length (text : List Char) : (text.flatMap charBits).length = 8 * text.length := by
  induction text with
  | nil => rfl
  | cons c cs ih => rw [List.flatMap_cons, List.length_append, charBits_length, ih, List.length_cons]; omega

/-- Character `k` of a text supplies its 8 bits from place `8k` on. -/
theorem flatMap_charBits_getElem? {text : List Char} {k j : Nat} {c : Char} (hc : text[k]? = some c) (hj : j < 8) :
    (text.flatMap charBits)[8 * k + j]? = some (c.toNat.testBit (7 - j)) := by
  induction text generalizing k with
  | nil => simp at hc
  | cons d ds ih =>
    rw [List.flatMap_cons]
    cases k with
    | zero =>
      cases hc
      rw [Nat.mul_zero, Nat.zero_add, List.getElem?_append_left (by rwa [charBits_length]), charBits_getElem? c hj]
    | succ k =>
      have hplace : 8 * (k + 1) + j = (charBits d).length + (8 * k + j) := by rw [charBits_length]; omega
      rw [hplace, List.getElem?_append_right (Nat.le_add_right _ _), Nat.add_sub_cancel_left]
      exact ih hc

/-! ## The configuration word of a line -/

/-- The code of each of the six names is its place in the list. -/
theorem schemeCodeOfName_of_place {name : List Char} {k : Nat} (h : schemeNames[k]? = some name) :
    (schemeCodeOfName name).toNat = k := by
  obtain ⟨hk, -⟩ := List.getElem?_eq_some_iff.mp h
  change k < 6 at hk
  interval_cases k <;> cases h <;> decide

theorem schemeCodeOfName_of_other {name : List Char} (h : name ∉ schemeNames) :
    (schemeCodeOfName name).toNat = 7 := by
  simp only [schemeNames, List.mem_cons, List.not_mem_nil, or_false, not_or] at h
  obtain ⟨h0, h1, h2, h3, h4, h5⟩ := h
  simp only [schemeCodeOfName, h0, h1, h2, h3, h4, h5, if_false]
  rfl

theorem cfgOfNotation_eq_cfgWord (code : SchemeCode) (init : Option Polarity) :
    cfgOfNotation code init = cfgWord (decide (init = some .high)) init.isSome code := by
  obtain _ | _ | _ := init <;> rfl

/-- The word of a line has the code of its name in SCHEME, and `init=` in PV and POL. -/
theorem notationCfg_cfgOfNotation (name : List Char) (init : Option Polarity) :
    NotationCfg name init (cfgOfNotation (schemeCodeOfName name) init) := by
  rw [cfgOfNotation_eq_cfgWord]
  have hscheme := cfgScheme_cfgWord (decide (init = some .high)) init.isSome (schemeCodeOfName name)
  refine ⟨fun k hk => ?_, fun hother => ?_, cfgPv_cfgWord _ _ _, cfgPol_cfgWord _ _ _⟩
  · exact (congrArg BitVec.toNat hscheme).trans (schemeCodeOfName_of_place hk)
  · exact (congrArg BitVec.toNat hscheme).trans (schemeCodeOfName_of_other hother)

theorem assembleEncodeText_ok (name : List Char) {text : List Char} (init : Option Polarity)
    (h : ∀ c ∈ text, c.toNat ≤ 127) : assembleEncodeText name text init =
      .ok { cfg := cfgOfNotation (schemeCodeOfName name) init, bits := text.flatMap charBits } := by
  rw [assembleEncodeText, bitsOfText_ok h, requestOfFields_ok]

theorem assembleEncode_ok (name : List Char) {chars : List Char} (init : Option Polarity)
    (h : ∀ c ∈ chars, c = '0' ∨ c = '1') : assembleEncode name chars init =
      .ok { cfg := cfgOfNotation (schemeCodeOfName name) init, bits := chars.map fun c => decide (c = '1') } := by
  rw [assembleEncode, bitsOfChars_ok h, requestOfFields_ok]

/-- Settles O59: the bits are those of the characters in order, 8 for each. -/
theorem textExpandsMostSignificantBitFirst : Obligations.TextExpandsMostSignificantBitFirst := by
  intro name text init htext
  exact ⟨_, assembleEncodeText_ok name init htext, notationCfg_cfgOfNotation name init, flatMap_charBits_length text,
    fun _ _ _ => flatMap_charBits_getElem?⟩

/-- Settles O60: by induction on the characters, each is turned into its bits, and the first that is not
admitted refuses the line. -/
theorem theTextBoundaryRefusesOtherCharacters : Obligations.TheTextBoundaryRefusesOtherCharacters := by
  intro name chars init
  refine ⟨fun hbits => ?bits, fun htext => ?text, fun hbad => ?badBit, fun hbad => ?badText⟩
  case bits => exact ⟨_, assembleEncode_ok name init hbits, notationCfg_cfgOfNotation name init, rfl⟩
  case text =>
    exact ⟨_, assembleEncodeText_ok name init htext, notationCfg_cfgOfNotation name init,
      flatMap_charBits_length chars⟩
  case badBit => rw [assembleEncode, bitsOfChars_error hbad, requestOfFields_error]
  case badText => rw [assembleEncodeText, bitsOfText_error hbad, requestOfFields_error]

end Sys2Proof.Machine
end
